-- ==== Sys2Proof/Word.lean ====
section
/-! DEFINITION. The word types of the block (spec/10_state.md R20, spec/20_memory.md R50) and the plain-data form
of its byte spaces. Everything is unsigned (spec/00_scope.md R7). -/

namespace Sys2Proof

/-- One byte: every access of the block is one byte wide (R51). -/
abbrev Byte := BitVec 8

/-- A 16-bit address of the CPU-visible space (R50). -/
abbrev Addr := BitVec 16

/-- A ROM bank number: 13 bits (R25). -/
abbrev BankNo := BitVec 13

/-- A byte space as a list of (address, byte) pairs. Its canonical form is `Memory.wf`
(Machine/Memory.lean); an address that no pair lists reads as 0x00 (R39). -/
abbrev Memory := List Host.Cell

end Sys2Proof
end

