-- ==== Sys2Proof/Config.lean ====
section
/-! DEFINITION. What is fixed for the life of a machine: the constants of spec/00_scope.md R6, the controller kinds of
spec/10_state.md R22, and the parameters that R6 leaves open, with the constraints R6 puts on them. -/

namespace Sys2Proof

/-! ## Fixed sizes and ranges (R6) -/

/-- `AS_SIZE`: 64 KiB. -/
abbrev asSize : Nat := 0x10000
/-- `ROM_BANK_SIZE`: 16 KiB. -/
abbrev romBankSize : Nat := 0x4000
/-- `RAM_BANK_SIZE`: 8 KiB. -/
abbrev ramBankSize : Nat := 0x2000
/-- The low end of `RAM_WINDOW` = `[0xA000,0xC000)`. -/
abbrev ramWindowBase : Nat := 0xA000
/-- `OAM_BASE`: the destination of the DMA copy. -/
abbrev oamBase : Nat := 0xFE00
/-- `DMA_LENGTH`: 160 bytes. -/
abbrev dmaLength : Nat := 0xA0
/-- `HRAM_BASE`: the first byte of high RAM. -/
abbrev hramBase : Nat := 0xFF80
/-- `BLOCK_SLOTS`: one compiled-block slot per high-RAM byte. -/
abbrev blockSlots : Nat := 0x80

/-! ## Controller kinds (R22) -/

/-- The tag `controllerKind`: the document's kinds, and UNSUPPORTED with the header code it came from (R200). -/
inductive Kind
  | none
  | mbc1 | mbc1Ram | mbc1RamBattery
  | mbc2 | mbc2Battery
  | mbc3TimerBattery | mbc3TimerRamBattery | mbc3 | mbc3Ram | mbc3RamBattery
  | mbc5 | mbc5Ram | mbc5RamBattery
  | unsupported (code : Byte)
  deriving DecidableEq, Repr

/-- The controller family, which is all the dispatcher looks at (R22). -/
inductive Family
  | none | mbc1 | mbc2 | mbc3 | mbc5 | unsupported
  deriving DecidableEq, Repr

/-- MBC1's `bankModeFlag`, one bit: 0 = ROM banking, 1 = RAM banking, as the tagged state that R28 asks for. -/
inductive BankMode
  /-- 0 -/
  | rom
  /-- 1 -/
  | ram
  deriving DecidableEq, Repr

/-! ## Open parameters (R6) -/

/-- The open parameters of R6, which a model takes as arguments. -/
structure Params where
  /-- `MAX_RAM_BANKS` -/
  maxRamBanks : Nat
  /-- `ADDR_INPUT_POLL` -/
  addrInputPoll : Addr
  /-- `ADDR_SERIAL_DATA` -/
  addrSerialData : Addr
  /-- `ADDR_TIMER_RESET` -/
  addrTimerReset : Addr
  /-- `ADDR_DMA_TRIGGER` -/
  addrDmaTrigger : Addr
  /-- `KIND_OF_CODE` as a table; a code it does not list is UNSUPPORTED -/
  kindTable : List (Byte × Kind)
  /-- `INVAL_SCAN_INCLUSIVE` -/
  invalScanInclusive : Bool
  deriving DecidableEq, Repr

/-- Where R6 allows a special register to lie: in `[0x8000,0xFF80)`, outside the RAM window and outside the
sprite-attribute region. -/
def specialAddrOk (a : Addr) : Bool :=
  decide (0x8000 ≤ a.toNat) && decide (a.toNat < hramBase)
    && !(decide (ramWindowBase ≤ a.toNat) && decide (a.toNat < ramWindowBase + ramBankSize))
    && !(decide (oamBase ≤ a.toNat) && decide (a.toNat < oamBase + dmaLength))

/-- The four special addresses. -/
def Params.specialAddrs (p : Params) : List Addr :=
  [p.addrInputPoll, p.addrSerialData, p.addrTimerReset, p.addrDmaTrigger]

/-- The constraints of R6: `MAX_RAM_BANKS >= 5`; the four addresses pairwise different and each where R6 allows it. -/
def Params.ok (p : Params) : Bool :=
  decide (5 ≤ p.maxRamBanks) && p.specialAddrs.all specialAddrOk && decide p.specialAddrs.Nodup

/-- A configuration that R6 admits: one that breaks the constraints is refused by having no value of this type. -/
structure Config extends Params where
  valid : toParams.ok = true
  deriving DecidableEq, Repr

/-- The default table of `KIND_OF_CODE` (R22). PRESUMED by the spec from general knowledge (assumption 4). -/
def defaultKindTable : List (Byte × Kind) :=
  [ (0x00, .none),
    (0x01, .mbc1), (0x02, .mbc1Ram), (0x03, .mbc1RamBattery),
    (0x05, .mbc2), (0x06, .mbc2Battery),
    (0x0F, .mbc3TimerBattery), (0x10, .mbc3TimerRamBattery), (0x11, .mbc3), (0x12, .mbc3Ram), (0x13, .mbc3RamBattery),
    (0x19, .mbc5), (0x1A, .mbc5Ram), (0x1B, .mbc5RamBattery) ]

/-- The defaults of R6. -/
def defaultParams : Params where
  maxRamBanks := 16
  addrInputPoll := 0xFF00
  addrSerialData := 0xFF01
  addrTimerReset := 0xFF04
  addrDmaTrigger := 0xFF46
  kindTable := defaultKindTable
  invalScanInclusive := false

/-- The configuration after reset: the defaults of R6. PRESUMED (assumption 4). -/
def Config.default : Config := { defaultParams with valid := by decide }

end Sys2Proof
end

