-- ==== Sys2Proof/Machine/Memory.lean ====
section
/-! DEFINITION. Operations on a byte space held as (address, byte) pairs: reading, writing one byte, replacing a range
of bytes. All keep the canonical form `Memory.wf`. -/

namespace Sys2Proof

/-- The canonical form: addresses strictly rising, and no pair lists 0x00, which is what an unlisted address reads
as. -/
abbrev Memory.wf (m : Memory) : Prop :=
  m.Pairwise (fun c d => c.1 < d.1) ∧ ∀ c ∈ m, c.2 ≠ 0#8

/-- Every listed address lies in `[lo,hi)`. -/
abbrev Memory.within (m : Memory) (lo hi : Nat) : Prop :=
  ∀ c ∈ m, lo ≤ c.1 ∧ c.1 < hi

/-- The byte at an address; an unlisted address reads as 0x00 (R39). -/
def Memory.read : Memory → Nat → Byte
  | [], _ => 0
  | (b, x) :: rest, a => if b = a then x else Memory.read rest a

/-- Store one byte and keep the canonical form: a zero byte is stored by listing nothing. -/
def Memory.write : Memory → Nat → Byte → Memory
  | [], a, v => if v = 0 then [] else [(a, v)]
  | (b, x) :: rest, a, v =>
    if b < a then (b, x) :: Memory.write rest a v
    else if b = a then (if v = 0 then rest else (a, v) :: rest)
    else (if v = 0 then (b, x) :: rest else (a, v) :: (b, x) :: rest)

/-- Replace the `n` bytes from `lo` by what `block` lists there (its pairs lie in that range). -/
def Memory.splice (m : Memory) (lo n : Nat) (block : Memory) : Memory :=
  m.filter (fun c => decide (c.1 < lo)) ++ block ++ m.filter (fun c => decide (lo + n ≤ c.1))

/-- The listing of `n` bytes at `lo` whose byte `k` is `f k`. -/
def Memory.block (lo n : Nat) (f : Nat → Byte) : Memory :=
  (List.range n).filterMap (fun k => if f k = 0 then none else some (lo + k, f k))

/-- The listing at `dst` of the `n` bytes that `m` holds from `src`. -/
def Memory.shifted (m : Memory) (src n dst : Nat) : Memory :=
  (m.filter (fun c => decide (src ≤ c.1 ∧ c.1 < src + n))).map (fun c => (dst + (c.1 - src), c.2))

end Sys2Proof
end

