-- ==== Sys2Proof/Syntax.lean ====
section
/-! DEFINITION. What a requester can ask of the block (spec/30_encoding.md R80, R81) and the commands and operations
those requests select: one constructor of `Instr` per row of spec/opcode_table.json. -/

namespace Sys2Proof

/-- A cartridge image: a byte string of `len` bytes, held as its nonzero bytes (assumption 13). -/
structure Image where
  /-- `len(image)` -/
  len : Nat
  /-- the nonzero bytes by file offset -/
  bytes : Memory
  deriving DecidableEq, Repr

/-- The argument of INIT: a cartridge image, or NONE with the host's optional preload of `AS[0x0000 .. 0x7FFF]`
(R101, R64). -/
inductive Source
  | cartridge (img : Image)
  | anonymous (preload : Memory)
  deriving DecidableEq, Repr

/-- One operation as it is requested. Which of the five it is, is the constructor and no bit field (R80); WRITE carries
the 24-bit transaction word and READ the 16-bit address (R81). -/
inductive Request
  | init (src : Source)
  | wr (word : BitVec 24)
  | rd (a : Addr)
  | free
  | dump
  deriving DecidableEq, Repr

/-- The write commands and operations, one constructor per row of spec/opcode_table.json, in the table's order. `a` is
the written address and `v` the written value; the four special registers have one address each and carry the value
alone (R84). -/
inductive Instr
  /-- `UNSUP.W` (R160) -/
  | unsupW (a : Addr) (v : Byte)
  /-- `LATCH.NOP` (R141) -/
  | latchNop (a : Addr) (v : Byte)
  /-- `NONE.IGN` (R142) -/
  | noneIgn (a : Addr) (v : Byte)
  /-- `MBC1.ROMB` (R143) -/
  | mbc1Romb (a : Addr) (v : Byte)
  /-- `MBC1.STASH` (R144) -/
  | mbc1Stash (a : Addr) (v : Byte)
  /-- `MBC1.RAMB` (R145) -/
  | mbc1Ramb (a : Addr) (v : Byte)
  /-- `MBC1.MODE` (R146) -/
  | mbc1Mode (a : Addr) (v : Byte)
  /-- `MBC3.ROMB` (R148) -/
  | mbc3Romb (a : Addr) (v : Byte)
  /-- `MBC3.RAMB` (R150) -/
  | mbc3Ramb (a : Addr) (v : Byte)
  /-- `MBC3.RTCSEL` (R151) -/
  | mbc3Rtcsel (a : Addr) (v : Byte)
  /-- `MBC3.LATCH` (R152) -/
  | mbc3Latch (a : Addr) (v : Byte)
  /-- `MBC5.ROMB` (R153) -/
  | mbc5Romb (a : Addr) (v : Byte)
  /-- `MBC5.RAMB` (R154) -/
  | mbc5Ramb (a : Addr) (v : Byte)
  /-- `MBC5.NA` (R155) -/
  | mbc5Na (a : Addr) (v : Byte)
  /-- `TIMER.W` (R173) -/
  | timerW (v : Byte)
  /-- `INPUT.W` (R171) -/
  | inputW (v : Byte)
  /-- `SERIAL.W` (R172) -/
  | serialW (v : Byte)
  /-- `DMA.W` (R174) -/
  | dmaW (v : Byte)
  /-- `RTCWIN.W` (R177) -/
  | rtcwinW (a : Addr) (v : Byte)
  /-- `HRAM.W` (R190) -/
  | hramW (a : Addr) (v : Byte)
  /-- `STORE.W` (R170) -/
  | storeW (a : Addr) (v : Byte)
  /-- `READ` (R105) -/
  | read (a : Addr)
  /-- `INIT` (R101) -/
  | init (src : Source)
  /-- `FREE` (R106) -/
  | free
  /-- `DUMP` (R108) -/
  | dump
  deriving DecidableEq, Repr

/-- What takes part in the decode of a write besides its word (R85), and the configuration that fixes the special
addresses. -/
structure DecodeCtx where
  config : Config
  family : Family
  bankModeFlag : BankMode
  rtcWindowActive : Bool
  deriving DecidableEq, Repr

end Sys2Proof
end

