-- ==== Sys2Proof/WellFormed.lean ====
section
/-! DEFINITION. Which terms are instructions of the block: the operand ranges of spec/30_encoding.md R84, and the
byte strings that INIT takes (spec/40_mapper_lifecycle.md R101, spec/20_memory.md R64). -/

namespace Sys2Proof

/-- The address lies in `[lo,hi)`. -/
def inRange (lo hi : Nat) (a : Addr) : Bool := decide (lo ≤ a.toNat) && decide (a.toNat < hi)

/-- The listed bytes of an image are a canonical listing of offsets below its length. -/
def Image.wf (img : Image) : Bool := decide (Memory.wf img.bytes) && decide (Memory.within img.bytes 0 img.len)

/-- The operand of INIT is a byte string; a preload lies in the ROM region (R64). -/
def Source.wf : Source → Bool
  | .cartridge img => img.wf
  | .anonymous preload => decide (Memory.wf preload) && decide (Memory.within preload 0 0x8000)

/-- `a` is none of the four special addresses (R170). -/
def Config.notSpecial (c : Config) (a : Addr) : Bool := !c.specialAddrs.contains a

/-- The operand ranges of the table's rows (R84); the rows of family MBC3 in `[0x4000,0x6000)` are told apart by the
value (R150, R151). -/
def Instr.wf (c : Config) : Instr → Bool
  | .unsupW a _ => inRange 0x0000 0x8000 a
  | .latchNop a _ => inRange 0x0000 0x2000 a
  | .noneIgn a _ => inRange 0x2000 0x8000 a
  | .mbc1Romb a _ => inRange 0x2000 0x4000 a
  | .mbc1Stash a _ => inRange 0x4000 0x6000 a
  | .mbc1Ramb a _ => inRange 0x4000 0x6000 a
  | .mbc1Mode a _ => inRange 0x6000 0x8000 a
  | .mbc3Romb a _ => inRange 0x2000 0x4000 a
  | .mbc3Ramb a v => inRange 0x4000 0x6000 a && decide (v.toNat ≤ 4)
  | .mbc3Rtcsel a v => inRange 0x4000 0x6000 a && decide (4 < v.toNat)
  | .mbc3Latch a _ => inRange 0x6000 0x8000 a
  | .mbc5Romb a _ => inRange 0x2000 0x4000 a
  | .mbc5Ramb a _ => inRange 0x4000 0x6000 a
  | .mbc5Na a _ => inRange 0x6000 0x8000 a
  | .timerW _ => true
  | .inputW _ => true
  | .serialW _ => true
  | .dmaW _ => true
  | .rtcwinW a _ => inRange 0xA000 0xC000 a
  | .hramW a _ => inRange 0xFF80 0x10000 a
  | .storeW a _ => inRange 0x8000 0xFF80 a && c.notSpecial a
  | .read _ => true
  | .init src => src.wf
  | .free => true
  | .dump => true

/-- The family and state conditions of the table's rows (R84): in which contexts a write selects the command. -/
def Instr.selectedIn (x : DecodeCtx) : Instr → Bool
  | .unsupW _ _ => x.family == .mbc2 || x.family == .unsupported
  | .latchNop _ _ => x.family != .mbc2 && x.family != .unsupported
  | .noneIgn _ _ => x.family == .none
  | .mbc1Romb _ _ => x.family == .mbc1
  | .mbc1Stash _ _ => x.family == .mbc1 && x.bankModeFlag == .rom
  | .mbc1Ramb _ _ => x.family == .mbc1 && x.bankModeFlag == .ram
  | .mbc1Mode _ _ => x.family == .mbc1
  | .mbc3Romb _ _ => x.family == .mbc3
  | .mbc3Ramb _ _ => x.family == .mbc3
  | .mbc3Rtcsel _ _ => x.family == .mbc3
  | .mbc3Latch _ _ => x.family == .mbc3
  | .mbc5Romb _ _ => x.family == .mbc5
  | .mbc5Ramb _ _ => x.family == .mbc5
  | .mbc5Na _ _ => x.family == .mbc5
  | .timerW _ => true
  | .inputW _ => true
  | .serialW _ => true
  | .dmaW _ => true
  | .rtcwinW _ _ => x.rtcWindowActive
  | .hramW _ _ => true
  | .storeW a _ => !(inRange 0xA000 0xC000 a && x.rtcWindowActive)
  | .read _ => true
  | .init _ => true
  | .free => true
  | .dump => true

end Sys2Proof
end

