-- ==== Sys2Proof/Decode.lean ====
section
/-! DEFINITION. From a request to the command it selects (spec/30_encoding.md R83), the opcode map as rows (R84), the
encoder, and the reading of a bare word of a given width. -/

namespace Sys2Proof

/-- Why something offered to the decoder is no request of the block. -/
inductive Rejection
  /-- no format has this many bits: WR has 24, RD has 16, the other three operations have none (R80) -/
  | noFormat (nbits : Nat)
  /-- the word has bits above its format's width (R81) -/
  | wordTooWide (nbits : Nat)
  /-- the image offered to INIT is not the listing of a byte string (assumption 12) -/
  | imageMalformed
  /-- the preload offered to INIT is not a listing of bytes of `[0x0000,0x8000)` (R64; assumption 12) -/
  | preloadMalformed
  deriving DecidableEq, Repr

/-- The family of a kind (R22). -/
def Kind.family : Kind → Family
  | .none => .none
  | .mbc1 => .mbc1
  | .mbc1Ram => .mbc1
  | .mbc1RamBattery => .mbc1
  | .mbc2 => .mbc2
  | .mbc2Battery => .mbc2
  | .mbc3TimerBattery => .mbc3
  | .mbc3TimerRamBattery => .mbc3
  | .mbc3 => .mbc3
  | .mbc3Ram => .mbc3
  | .mbc3RamBattery => .mbc3
  | .mbc5 => .mbc5
  | .mbc5Ram => .mbc5
  | .mbc5RamBattery => .mbc5
  | .unsupported _ => .unsupported

/-- The address field of a write word: bits 23:8 (R81). -/
def wordAddr (t : BitVec 24) : Addr := t.extractLsb' 8 16

/-- The value field of a write word: bits 7:0 (R81). -/
def wordValue (t : BitVec 24) : Byte := t.extractLsb' 0 8

/-- `T = (a << 8) | v` (R81). -/
def writeWord (a : Addr) (v : Byte) : BitVec 24 := a ++ v

/-- The half of the decode below 0x8000: a command to the controller (R83). -/
def decodeRomRegion (x : DecodeCtx) (a : Addr) (v : Byte) : Instr :=
  match x.family with
  | .mbc2 => .unsupW a v
  | .unsupported => .unsupW a v
  | .none => if a < 0x2000#16 then .latchNop a v else .noneIgn a v
  | .mbc1 =>
    if a < 0x2000#16 then .latchNop a v
    else if a < 0x4000#16 then .mbc1Romb a v
    else if a < 0x6000#16 then
      match x.bankModeFlag with
      | .rom => .mbc1Stash a v
      | .ram => .mbc1Ramb a v
    else .mbc1Mode a v
  | .mbc3 =>
    if a < 0x2000#16 then .latchNop a v
    else if a < 0x4000#16 then .mbc3Romb a v
    else if a < 0x6000#16 then
      if v ≤ 4#8 then .mbc3Ramb a v else .mbc3Rtcsel a v
    else .mbc3Latch a v
  | .mbc5 =>
    if a < 0x2000#16 then .latchNop a v
    else if a < 0x4000#16 then .mbc5Romb a v
    else if a < 0x6000#16 then .mbc5Ramb a v
    else .mbc5Na a v

/-- The half of the decode from 0x8000 on: the working-memory and register region (R83). -/
def decodeUpper (x : DecodeCtx) (a : Addr) (v : Byte) : Instr :=
  if a = x.config.addrTimerReset then .timerW v
  else if a = x.config.addrInputPoll then .inputW v
  else if a = x.config.addrSerialData then .serialW v
  else if a = x.config.addrDmaTrigger then .dmaW v
  else if 0xA000#16 ≤ a ∧ a < 0xC000#16 ∧ x.rtcWindowActive = true then .rtcwinW a v
  else if 0xFF80#16 ≤ a then .hramW a v
  else .storeW a v

/-- The command a write selects (R83). Total: every word selects a command in every context (R86). -/
def decodeWrite (x : DecodeCtx) (a : Addr) (v : Byte) : Instr :=
  if a < 0x8000#16 then decodeRomRegion x a v else decodeUpper x a v

/-- INIT with an operand that is a byte string (R101). -/
def decodeInit (src : Source) : Except Rejection Instr :=
  if src.wf then .ok (.init src)
  else
    match src with
    | .cartridge _ => .error .imageMalformed
    | .anonymous _ => .error .preloadMalformed

/-- The instruction a request selects in a context (R80, R83). -/
def decode (x : DecodeCtx) : Request → Except Rejection Instr
  | .init src => decodeInit src
  | .wr t => .ok (decodeWrite x (wordAddr t) (wordValue t))
  | .rd a => .ok (.read a)
  | .free => .ok .free
  | .dump => .ok .dump

/-! ## The opcode map as rows (R84) -/

/-- One row of the opcode map: the command is a candidate when `T & mask = pattern` and the extra conditions hold; of
the candidates the one with the smallest priority is selected. -/
structure Row where
  mnemonic : String
  mask : BitVec 24
  pattern : BitVec 24
  families : List Family
  condition : DecodeCtx → Byte → Bool
  priority : Nat
  make : Addr → Byte → Instr

/-- The family column's "any". -/
def anyFamily : List Family := [.none, .mbc1, .mbc2, .mbc3, .mbc5, .unsupported]

/-- The extra-condition column where it is empty. -/
def noCondition : DecodeCtx → Byte → Bool := fun _ _ => true

/-- `ADDR << 8`, the match of a special register's row. -/
def addrPattern (a : Addr) : BitVec 24 := writeWord a 0

/-- The rows of the ROM region. -/
def romRegionRows : List Row :=
  [ ⟨"UNSUP.W", 0x800000, 0x000000, [.mbc2, .unsupported], noCondition, 1, .unsupW⟩,
    ⟨"LATCH.NOP", 0xE00000, 0x000000, [.none, .mbc1, .mbc3, .mbc5], noCondition, 1, .latchNop⟩,
    ⟨"NONE.IGN", 0x800000, 0x000000, [.none], noCondition, 2, .noneIgn⟩,
    ⟨"MBC1.ROMB", 0xE00000, 0x200000, [.mbc1], noCondition, 1, .mbc1Romb⟩,
    ⟨"MBC1.STASH", 0xE00000, 0x400000, [.mbc1], fun x _ => x.bankModeFlag == .rom, 1, .mbc1Stash⟩,
    ⟨"MBC1.RAMB", 0xE00000, 0x400000, [.mbc1], fun x _ => x.bankModeFlag == .ram, 1, .mbc1Ramb⟩,
    ⟨"MBC1.MODE", 0xE00000, 0x600000, [.mbc1], noCondition, 1, .mbc1Mode⟩,
    ⟨"MBC3.ROMB", 0xE00000, 0x200000, [.mbc3], noCondition, 1, .mbc3Romb⟩,
    ⟨"MBC3.RAMB", 0xE00000, 0x400000, [.mbc3], fun _ v => decide (v.toNat ≤ 4), 1, .mbc3Ramb⟩,
    ⟨"MBC3.RTCSEL", 0xE00000, 0x400000, [.mbc3], fun _ v => decide (4 < v.toNat), 1, .mbc3Rtcsel⟩,
    ⟨"MBC3.LATCH", 0xE00000, 0x600000, [.mbc3], noCondition, 1, .mbc3Latch⟩,
    ⟨"MBC5.ROMB", 0xE00000, 0x200000, [.mbc5], noCondition, 1, .mbc5Romb⟩,
    ⟨"MBC5.RAMB", 0xE00000, 0x400000, [.mbc5], noCondition, 1, .mbc5Ramb⟩,
    ⟨"MBC5.NA", 0xE00000, 0x600000, [.mbc5], noCondition, 1, .mbc5Na⟩ ]

/-- The rows from 0x8000 on; the special registers' matches follow the configuration. -/
def upperRows (c : Config) : List Row :=
  [ ⟨"TIMER.W", 0xFFFF00, addrPattern c.addrTimerReset, anyFamily, noCondition, 1, fun _ v => .timerW v⟩,
    ⟨"INPUT.W", 0xFFFF00, addrPattern c.addrInputPoll, anyFamily, noCondition, 1, fun _ v => .inputW v⟩,
    ⟨"SERIAL.W", 0xFFFF00, addrPattern c.addrSerialData, anyFamily, noCondition, 1, fun _ v => .serialW v⟩,
    ⟨"DMA.W", 0xFFFF00, addrPattern c.addrDmaTrigger, anyFamily, noCondition, 1, fun _ v => .dmaW v⟩,
    ⟨"RTCWIN.W", 0xE00000, 0xA00000, anyFamily, fun x _ => x.rtcWindowActive, 2, .rtcwinW⟩,
    ⟨"HRAM.W", 0xFF8000, 0xFF8000, anyFamily, noCondition, 2, .hramW⟩,
    ⟨"STORE.W", 0x800000, 0x800000, anyFamily, noCondition, 3, .storeW⟩ ]

/-- The rows of format `WR`, in the order of R84 (the rows of the ROM region, then the others). -/
def commandRows (c : Config) : List Row := romRegionRows ++ upperRows c

/-- The command is a candidate for the word in the context (R84). -/
def Row.candidate (r : Row) (x : DecodeCtx) (t : BitVec 24) : Bool :=
  decide (t &&& r.mask = r.pattern) && r.families.contains x.family && r.condition x (wordValue t)

/-! ## The encoder -/

/-- The request that stands for an instruction: the address above the value (R81); a special register's address is the
configuration's (R84). -/
def encode (c : Config) : Instr → Request
  | .unsupW a v => .wr (writeWord a v)
  | .latchNop a v => .wr (writeWord a v)
  | .noneIgn a v => .wr (writeWord a v)
  | .mbc1Romb a v => .wr (writeWord a v)
  | .mbc1Stash a v => .wr (writeWord a v)
  | .mbc1Ramb a v => .wr (writeWord a v)
  | .mbc1Mode a v => .wr (writeWord a v)
  | .mbc3Romb a v => .wr (writeWord a v)
  | .mbc3Ramb a v => .wr (writeWord a v)
  | .mbc3Rtcsel a v => .wr (writeWord a v)
  | .mbc3Latch a v => .wr (writeWord a v)
  | .mbc5Romb a v => .wr (writeWord a v)
  | .mbc5Ramb a v => .wr (writeWord a v)
  | .mbc5Na a v => .wr (writeWord a v)
  | .timerW v => .wr (writeWord c.addrTimerReset v)
  | .inputW v => .wr (writeWord c.addrInputPoll v)
  | .serialW v => .wr (writeWord c.addrSerialData v)
  | .dmaW v => .wr (writeWord c.addrDmaTrigger v)
  | .rtcwinW a v => .wr (writeWord a v)
  | .hramW a v => .wr (writeWord a v)
  | .storeW a v => .wr (writeWord a v)
  | .read a => .rd a
  | .init src => .init src
  | .free => .free
  | .dump => .dump

/-! ## Bare words -/

/-- The request a bare word of a format's width stands for: 24 bits are a WRITE, 16 bits a READ; INIT, FREE and DUMP
have no bits (R80). -/
def requestOfBits (nbits w : Nat) : Except Rejection Request :=
  if nbits = 24 then
    if w < 2 ^ 24 then .ok (.wr (BitVec.ofNat 24 w)) else .error (.wordTooWide nbits)
  else if nbits = 16 then
    if w < 2 ^ 16 then .ok (.rd (BitVec.ofNat 16 w)) else .error (.wordTooWide nbits)
  else .error (.noFormat nbits)

/-- The context right after reset: family NONE, mode 0, no RTC view, the default parameters (R39). -/
def resetCtx : DecodeCtx where
  config := Config.default
  family := .none
  bankModeFlag := .rom
  rtcWindowActive := false

/-- The instruction the decoder reads from a bare word right after reset (assumption 3). -/
def decodeTableWord (nbits w : Nat) : Option Instr :=
  match requestOfBits nbits w with
  | .error _ => none
  | .ok req =>
    match decode resetCtx req with
    | .error _ => none
    | .ok i => some i

end Sys2Proof
end

