-- ==== Sys2Proof/Machine/State.lean ====
section
/-! DEFINITION. Everything the spec gives the block (spec/10_state.md R20, R31, R34, R38; spec/00_scope.md R13) as plain
data, the faults and refusals, and the state after reset (R39). -/

namespace Sys2Proof.Machine

/-- The lifecycle phase (R38). -/
inductive Phase
  /-- before INIT, and after an INIT that aborted -/
  | uninit
  /-- after a successful INIT -/
  | live
  /-- after FREE -/
  | freed
  deriving DecidableEq, Repr

/-- The five operations as a Lifecycle fault names them (R38). -/
inductive OpName
  | init | write | read | free | dump
  deriving DecidableEq, Repr

/-- One entry of the compiled-block table (R31). -/
structure BlockEntry where
  startAddress : BitVec 16
  /-- exclusive, so 17 bits -/
  endAddress : BitVec 17
  /-- zero means the slot is empty; a counter of the collaborator's width, held as a natural (assumption 10) -/
  executionCount : Nat
  deriving DecidableEq, Repr

/-- A slot of the table: the high-RAM offset of a block's first byte (R31). -/
abbrev Slot := Fin blockSlots

/-- The compiled-block table `BT` (R31). -/
abbrev BlockTable := Vector BlockEntry blockSlots

/-- The input lines (R6): the button state and the environment's predicates (R37: inputs, not state; assumption 5). -/
structure Inputs where
  /-- 1 = pressed; bits 3:0 the direction pad, bits 7:4 the action buttons (R171) -/
  buttons : Byte
  openOk : Bool
  mapOk : Bool
  unmapOk : Bool
  deriving DecidableEq, Repr

/-- The step of INIT that failed (R200). -/
inductive InitStep
  /-- `open` -/
  | opening
  /-- `map` -/
  | mapping
  deriving DecidableEq, Repr

/-- The errors that `raise` hands to the caller (R200, R201). -/
inductive OpError
  | initError (failed : InitStep)
  /-- `TeardownError(unmap)` -/
  | teardownError
  deriving DecidableEq, Repr

/-- The events of the diagnostic sink (R109, R200). -/
inductive Diag
  | remapError (bank : BankNo)
  | unsupportedController (kind : Kind) (a : Addr) (v : Byte)
  deriving DecidableEq, Repr

/-- What DUMP returns: the raw header bytes (R108). -/
structure Summary where
  title : Vector Byte 15
  manufacturer : Vector Byte 4
  kindCode : Byte
  romSizeCode : Byte
  ramSizeCode : Byte
  deriving DecidableEq, Repr

/-- What the last operation returned to the requester (R10; assumption 6). -/
inductive Reply
  /-- nothing: WRITE has no result (R201), FREE returns none (R106) -/
  | none
  /-- INIT returned the state (R101) -/
  | initialised
  /-- READ's byte (R105) -/
  | value (b : Byte)
  /-- DUMP's summary (R108) -/
  | summary (d : Summary)
  /-- INIT or FREE reported an error (R102, R107) -/
  | error (e : OpError)
  deriving DecidableEq, Repr

/-- What reaches the block from outside, taken between operations only (R12, R31; assumptions 2, 5, 8). -/
inductive Event
  /-- the requester asks for an operation -/
  | request (req : Request)
  /-- the environment sets the input lines -/
  | setInputs (lines : Inputs)
  /-- the collaborator sets a table entry -/
  | setEntry (slot : Slot) (entry : BlockEntry)
  deriving DecidableEq, Repr

/-- The block and its interfaces. Outside phase `live` the nine items of R20 do not exist; the fields then hold the
values of `State.withoutItems` (assumption 11). -/
structure State where
  /-- the parameters of R6, fixed for the life of the machine (assumption 4) -/
  config : Config
  /-- R38 -/
  phase : Phase
  /-- `AS` (R21); with a cartridge the ROM region is `State.romByte` and is not listed here (R61) -/
  addressSpace : Memory
  /-- R22 -/
  controllerKind : Kind
  /-- R25 -/
  romBankIndex : BankNo
  /-- R26 -/
  ramBankIndex : Nat
  /-- `STORE` (R27): byte `o` of slot `b` at key `b * 0x2000 + o` -/
  ramBankStore : Memory
  /-- R28 -/
  bankModeFlag : BankMode
  /-- R28 -/
  bankModeData : BankNo
  /-- R29 -/
  rtcWindowActive : Bool
  /-- R30: `none` is the document's "none" sentinel -/
  cartridgeHandle : Option Image
  /-- `BT` (R31), external -/
  blockTable : BlockTable
  /-- the input lines (assumption 5) -/
  inputs : Inputs
  /-- what is still to be taken, oldest first (assumption 2) -/
  inbox : List Event
  /-- the last operation's result (assumption 6) -/
  reply : Reply
  /-- the diagnostic sink (R109) -/
  sink : List Diag
  /-- the `releaseBlock` calls made, in order (R191; assumption 7) -/
  releaseCalls : List Slot
  deriving DecidableEq, Repr

/-- Why the machine stops: the spec's own two faults (R10, R200). -/
inductive Fault
  /-- a RAM bank request `>= MAX_RAM_BANKS` (R124). Raised by `execMbc1Ramb` and `execMbc5Ramb` (and by `execMbc3Ramb`
  only on a value no decode gives it). Safe: the spec specifies nothing afterwards. -/
  | ramBankRange (bank : Byte)
  /-- an operation requested in a phase that does not accept it (R38). Raised by every meaning. Safe: the spec
  specifies nothing afterwards. -/
  | lifecycle (op : OpName) (phase : Phase)
  deriving DecidableEq, Repr

/-- Why the model has no answer. -/
inductive Refusal
  /-- no meaning for the instruction yet. Raised by `exec`'s refused arms alone, of which there is none. Safe. -/
  | notModelled (mnemonic : String)
  /-- the request offered is no request of the block: INIT with an operand that is no byte string (assumption 12).
  Raised by `step`. Safe: no requester can offer it. -/
  | malformedRequest (why : Rejection)
  deriving DecidableEq, Repr

/-- The outcome of a step on this machine. -/
abbrev Result := Host.Outcome State Fault Refusal

/-- An empty compiled-block slot. -/
def BlockEntry.empty : BlockEntry where
  startAddress := 0
  endAddress := 0
  executionCount := 0

/-- The state after reset (R39, R230): what a successful INIT returns, without a cartridge and without a preload
(assumptions 1, 5, 6, 9). -/
def State.reset : State where
  config := Config.default
  phase := .live
  addressSpace := []
  controllerKind := .none
  romBankIndex := 1
  ramBankIndex := 0
  ramBankStore := []
  bankModeFlag := .rom
  bankModeData := 0
  rtcWindowActive := false
  cartridgeHandle := none
  blockTable := Vector.replicate blockSlots BlockEntry.empty
  inputs := { buttons := 0, openOk := true, mapOk := true, unmapOk := true }
  inbox := []
  reply := .initialised
  sink := []
  releaseCalls := []

end Sys2Proof.Machine
end

