-- ==== Sys2Proof/Machine/Flags.lean ====
section
/-! DEFINITION. The block has no condition codes (spec/10_state.md R36). What a command computes for its two one-bit
state items, `bankModeFlag` and `rtcWindowActive`, stands here. -/

namespace Sys2Proof.Machine

/-- `bankModeFlag <- v & 1` (R146): 0 = ROM banking, 1 = RAM banking. -/
def bankModeOf (v : Byte) : BankMode := if v.getLsbD 0 then .ram else .rom

/-- The window holds a RAM bank, to be saved before it is replaced, exactly when the RTC view is not active (R32 (c)). -/
def State.windowHoldsBank (s : State) : Bool := !s.rtcWindowActive

end Sys2Proof.Machine
end

