-- ==== Sys2Proof/Machine/Operands.lean ====
section
/-! DEFINITION. How each command takes its operands from the address, the value and the state (spec/30_encoding.md R82,
spec/45_common_semantics.md R196). All unsigned, nothing wraps. -/

namespace Sys2Proof.Machine

/-- `KIND_OF_CODE` (R22): the configured kind of a header code, UNSUPPORTED where the table has none. -/
def kindOfCode (c : Config) (code : Byte) : Kind :=
  match c.kindTable.find? (fun row => row.1 == code) with
  | some row => row.2
  | none => .unsupported code

/-- The low `n` bits of a value, as a ROM bank number: `zext_13(v & (2^n - 1))` (R82). -/
def lowBits (n : Nat) (v : Byte) : BankNo := (v.extractLsb' 0 n).setWidth 13

/-- `if bank = 0 then 1 else bank` (R82, R196 (i)). -/
def forceNonzero (bank : BankNo) : BankNo := if bank = 0 then 1 else bank

/-- The bank an `MBC1.ROMB` selects (R143): mask, combine with the stash in mode 0, then force. -/
def mbc1Bank (mode : BankMode) (stash : BankNo) (v : Byte) : BankNo :=
  match mode with
  | .rom => forceNonzero (lowBits 5 v ||| stash)
  | .ram => forceNonzero (lowBits 5 v)

/-- The bank an `MBC3.ROMB` selects (R148). -/
def mbc3Bank (v : Byte) : BankNo := forceNonzero (lowBits 7 v)

/-- The bank an `MBC5.ROMB` selects: all 8 bits, no forcing (R153). -/
def mbc5Bank (v : Byte) : BankNo := v.setWidth 13

/-- The stash of `MBC1.STASH`: `zext_13(v) << 5`, no bit masked (R144). -/
def stashOf (v : Byte) : BankNo := v.setWidth 13 <<< 5

/-- The 4-bit states of the groups an input poll requests, OR'd together (R171): bit 4 clear requests the direction
pad, bit 5 clear the action buttons. -/
def requestedButtons (buttons v : Byte) : BitVec 4 :=
  (if v.getLsbD 4 then 0#4 else buttons.extractLsb' 0 4)
    ||| (if v.getLsbD 5 then 0#4 else buttons.extractLsb' 4 4)

/-- The byte an input poll stores: `0xF0 | (~n & 0x0F)` (R171). -/
def inputByte (buttons v : Byte) : Byte := 0xF#4 ++ ~~~(requestedButtons buttons v)

/-- The DMA source address: `zext_16(v) << 8` (R174). -/
def dmaSource (v : Byte) : Addr := v.setWidth 16 <<< 8

/-- The high-RAM offset `a - 0xFF80` (R82). -/
def highRamOffset (a : Addr) : Nat := a.toNat - hramBase

end Sys2Proof.Machine
end

