-- ==== Sys2Proof/Machine/Ops.lean ====
section
/-! DEFINITION. The named operations that the meanings share: reading a byte of the address space, the raw store and
the raw copies (spec/00_scope.md R9), the diagnostic sink and the errors (spec/60_exceptions.md R200), the lifecycle
check (spec/10_state.md R38). The block takes no trap (R212): what stands in the place of an exception's entry is
`State.raise`, `State.emit` and the fault of `State.whenLive`; there is no return from one (R213). -/

namespace Sys2Proof.Machine

/-! ## Reading the address space -/

/-- Byte `o` of an image. -/
def imageByte (img : Image) (o : Nat) : Byte := Memory.read img.bytes o

/-- `ROM(a)` (R61): bank 0 below 0x4000, the selected bank above. -/
def romByte (img : Image) (bank : BankNo) (a : Addr) : Byte :=
  if a.toNat < romBankSize then imageByte img a.toNat
  else imageByte img (bank.toNat * romBankSize + (a.toNat - romBankSize))

/-- `ROM_BANKS` (R6): how many whole banks the image has. Without a cartridge no bank can be selected (R64;
assumption 23). -/
def State.romBanks (s : State) : Nat :=
  match s.cartridgeHandle with
  | some img => img.len / romBankSize
  | none => 0

/-- `MemRead(a, 1)` = `AS[a]` (R9, R61, R64). -/
def State.readByte (s : State) (a : Addr) : Byte :=
  match s.cartridgeHandle with
  | some img => if a.toNat < 0x8000 then romByte img s.romBankIndex a else Memory.read s.addressSpace a.toNat
  | none => Memory.read s.addressSpace a.toNat

/-- The `n` bytes of the address space from `base`. -/
def State.readBytes (s : State) (base : Addr) (n : Nat) : Vector Byte n :=
  Vector.ofFn (fun k => s.readByte (base + BitVec.ofNat 16 k.val))

/-- `RAM(b, o)` (R62): the live byte `o` of RAM bank `b`. -/
def State.ramByte (s : State) (b o : Nat) : Byte :=
  if b = s.ramBankIndex ∧ s.rtcWindowActive = false then Memory.read s.addressSpace (ramWindowBase + o)
  else Memory.read s.ramBankStore (b * ramBankSize + o)

/-! ## Raw stores and copies -/

/-- `MemWrite(a, 1, v)`: the raw store (R9). -/
def State.memWrite (s : State) (a : Addr) (v : Byte) : State :=
  { s with addressSpace := Memory.write s.addressSpace a.toNat v }

/-- `Copy(dst, src, n)`: all source bytes are read before any is written (R9). -/
def State.copy (s : State) (dst : Nat) (src : Addr) (n : Nat) : State :=
  { s with
    addressSpace := Memory.splice s.addressSpace dst n
      (Memory.block dst n (fun k => s.readByte (src + BitVec.ofNat 16 k))) }

/-- `STORE[ramBankIndex][o] <- AS[0xA000 + o]` for every `o` (R123, R126). -/
def State.flushWindow (s : State) : State :=
  { s with
    ramBankStore := Memory.splice s.ramBankStore (s.ramBankIndex * ramBankSize) ramBankSize
      (Memory.shifted s.addressSpace ramWindowBase ramBankSize (s.ramBankIndex * ramBankSize)) }

/-- `AS[0xA000 + o] <- STORE[bank][o]` for every `o` (R123). -/
def State.loadWindow (s : State) (bank : Nat) : State :=
  { s with
    addressSpace := Memory.splice s.addressSpace ramWindowBase ramBankSize
      (Memory.shifted s.ramBankStore (bank * ramBankSize) ramBankSize ramWindowBase) }

/-- `AS[0xA000 + o] <- 0x00` for every `o` (R126). -/
def State.zeroWindow (s : State) : State :=
  { s with addressSpace := Memory.splice s.addressSpace ramWindowBase ramBankSize [] }

/-- Flush the window if it holds a RAM bank (R32 (c)). -/
def State.saveOutgoing (s : State) : State :=
  if s.windowHoldsBank then s.flushWindow else s

/-! ## Outcomes (R10, R200) -/

/-- `diag <Event>`: append to the sink; nothing else changes (R10 (2)). -/
def State.emit (s : State) (d : Diag) : State := { s with sink := s.sink ++ [d] }

/-- Hand the requester a result. -/
def State.answer (s : State) (r : Reply) : State := { s with reply := r }

/-- `raise <Error>`: the operation ends and its error is the caller's result (R10 (3), R201). -/
def State.raise (s : State) (e : OpError) : State := s.answer (.error e)

/-- Every operation but INIT is accepted in phase LIVE alone and faults elsewhere (R38, R211 (a)). -/
def State.whenLive (s : State) (op : OpName) (next : State → Result) : Result :=
  if s.phase = .live then next s else .fault (.lifecycle op s.phase)

/-- The nine items are gone (R38, R102, R106): their fields hold the values of a reset without a cartridge, which
nothing reads outside phase LIVE (assumption 11). -/
def State.withoutItems (s : State) : State :=
  { s with
    addressSpace := []
    controllerKind := .none
    romBankIndex := 1
    ramBankIndex := 0
    ramBankStore := []
    bankModeFlag := .rom
    bankModeData := 0
    rtcWindowActive := false
    cartridgeHandle := none }

/-- The state before the first INIT (R38): the machine of `State.reset` with no controller in it. -/
def State.powerOn : State := { State.reset.withoutItems with phase := .uninit, reply := .none }

/-- The block takes an input from the head of its inbox; the result of the operation before is gone (assumption 6). -/
def State.accept (s : State) (rest : List Event) : State := { s with inbox := rest, reply := .none }

/-- What takes part in the decode of a write (R85). -/
def State.decodeCtx (s : State) : DecodeCtx where
  config := s.config
  family := s.controllerKind.family
  bankModeFlag := s.bankModeFlag
  rtcWindowActive := s.rtcWindowActive

end Sys2Proof.Machine
end

