-- ==== Sys2Proof/Machine/Interceptor.lean ====
section
/-! DEFINITION. The hardware-register write interceptor (spec/43_register_interceptor.md): a WRITE from 0x8000 to 0xFF7F. -/

namespace Sys2Proof.Machine

/-- `TIMER.W` (R173): write-to-clear. -/
def execTimerW (_v : Byte) (s : State) : Result :=
  s.whenLive .write fun s => .next (s.memWrite s.config.addrTimerReset 0)

/-- `INPUT.W` (R171): the buttons are sampled now. -/
def execInputW (v : Byte) (s : State) : Result :=
  s.whenLive .write fun s => .next (s.memWrite s.config.addrInputPoll (inputByte s.inputs.buttons v))

/-- `SERIAL.W` (R172): stored, no transfer. -/
def execSerialW (v : Byte) (s : State) : Result :=
  s.whenLive .write fun s => .next (s.memWrite s.config.addrSerialData v)

/-- `DMA.W` (R174): the written byte is stored, then 160 bytes from `v * 256` are copied to `[0xFE00,0xFEA0)`. -/
def execDmaW (v : Byte) (s : State) : Result :=
  s.whenLive .write fun s => .next ((s.memWrite s.config.addrDmaTrigger v).copy oamBase (dmaSource v) dmaLength)

/-- `RTCWIN.W` (R177): a store into the window during the RTC view is dropped. -/
def execRtcwinW (_a : Addr) (_v : Byte) (s : State) : Result :=
  s.whenLive .write fun s => .next s

/-- `STORE.W` (R170): the default raw store. -/
def execStoreW (a : Addr) (v : Byte) (s : State) : Result :=
  s.whenLive .write fun s => .next (s.memWrite a v)

end Sys2Proof.Machine
end

