-- ==== Sys2Proof/Machine/Invalidation.lean ====
section
/-! DEFINITION. The code-cache invalidation hook (spec/44_invalidation.md): the store into high RAM and the scan after it. -/

namespace Sys2Proof.Machine

/-- The scan releases this entry for a write at `a`: it is live and ends after `a` (R191). -/
def BlockEntry.hit (a : Addr) (e : BlockEntry) : Bool :=
  e.executionCount != 0 && decide (a.toNat < e.endAddress.toNat)

/-- How many slots, from slot 0, a scan for a write at `a` visits: the offset's, and one more if the scan is configured
inclusive (R191, R192). -/
def scanBound (c : Config) (a : Addr) : Nat :=
  if c.invalScanInclusive then highRamOffset a + 1 else highRamOffset a

/-- One slot of the scan: a hit is released and its count becomes zero (R191). -/
def scanSlot (a : Addr) (s : State) (i : Slot) : State :=
  let e := s.blockTable[i]
  if e.hit a then
    { s with
      blockTable := s.blockTable.set i { e with executionCount := 0 }
      releaseCalls := s.releaseCalls ++ [i] }
  else s

/-- `InvalidationScan(a)` (R191): the slots below the bound, ascending. -/
def invalidationScan (a : Addr) (s : State) : State :=
  ((List.finRange blockSlots).filter (fun i => decide (i.val < scanBound s.config a))).foldl (scanSlot a) s

/-- `HRAM.W` (R190): the byte is stored first, then the scan runs. -/
def execHramW (a : Addr) (v : Byte) (s : State) : Result :=
  s.whenLive .write fun s => .next (invalidationScan a (s.memWrite a v))

end Sys2Proof.Machine
end

