-- ==== Sys2Proof/Machine/Lifecycle.lean ====
section
/-! DEFINITION. The operations that are not writes (spec/40_mapper_lifecycle.md): READ, INIT, FREE, DUMP. -/

namespace Sys2Proof.Machine

/-- `READ` (R105). -/
def execRead (a : Addr) (s : State) : Result :=
  s.whenLive .read fun s => .next (s.answer (.value (s.readByte a)))

/-- The state a successful INIT returns (R101, R39). The table of compiled blocks is not touched (R31); the sink is
empty (R39). -/
def State.started (s : State) (handle : Option Image) (kind : Kind) (lower : Memory) : State :=
  { s with
    phase := .live
    addressSpace := lower
    controllerKind := kind
    romBankIndex := 1
    ramBankIndex := 0
    ramBankStore := []
    bankModeFlag := .rom
    bankModeData := 0
    rtcWindowActive := false
    cartridgeHandle := handle
    sink := []
    reply := .initialised }

/-- INIT with a cartridge: open, length, map, in this order (R101, R211 (b)). -/
def initCartridge (img : Image) (s : State) : State :=
  if s.inputs.openOk = false then s.raise (.initError .opening)
  else if img.len < 0x8000 then s.raise (.initError .mapping)
  else if s.inputs.mapOk = false then s.raise (.initError .mapping)
  else s.started (some img) (kindOfCode s.config (imageByte img 0x147)) []

/-- INIT without a cartridge (R101, R104): `OpenOk` is not consulted, the kind is none. -/
def initAnonymous (preload : Memory) (s : State) : State :=
  if s.inputs.mapOk = false then s.raise (.initError .mapping)
  else s.started none .none preload

/-- What an accepted INIT does (R101). -/
def State.initialise (s : State) : Source → State
  | .cartridge img => initCartridge img s
  | .anonymous preload => initAnonymous preload s

/-- `INIT` (R101): accepted in phase UNINIT alone (R38). -/
def execInit (src : Source) (s : State) : Result :=
  if s.phase = .uninit then .next (s.initialise src) else .fault (.lifecycle .init s.phase)

/-- `FREE` (R106, R107): everything is released and the phase is FREED; a failed unmapping is reported after that. -/
def execFree (s : State) : Result :=
  s.whenLive .free fun s =>
    let freed := { s.withoutItems with phase := .freed }
    .next (if s.inputs.unmapOk then freed.answer .none else freed.raise .teardownError)

/-- The raw header bytes of DUMP, read from the address space (R108). -/
def State.header (s : State) : Summary where
  title := s.readBytes 0x0134 15
  manufacturer := s.readBytes 0x013F 4
  kindCode := s.readByte 0x0147
  romSizeCode := s.readByte 0x0148
  ramSizeCode := s.readByte 0x0149

/-- `DUMP` (R108). -/
def execDump (s : State) : Result :=
  s.whenLive .dump fun s => .next (s.answer (.summary s.header))

end Sys2Proof.Machine
end

