-- ==== Sys2Proof/Machine/BankSwitch.lean ====
section
/-! DEFINITION. The bank-switch engine (spec/41_bank_switch.md): the internal operations that the MBC commands share. -/

namespace Sys2Proof.Machine

/-- `changeRomBank(req)` (R120, R121): no-op on the current bank; `RemapOk(req)` is `req < ROM_BANKS`, tested before the
old mapping is given up, so a failure reports and leaves the previous bank (assumption 14). -/
def changeRomBank (req : BankNo) (s : State) : State :=
  if req = s.romBankIndex then s
  else if req.toNat < s.romBanks then { s with romBankIndex := req }
  else s.emit (.remapError req)

/-- The swap of `changeRamBank`: flush the outgoing bank unless it is the RTC view, load the incoming one (R123). -/
def swapRamBank (req : Nat) (s : State) : State :=
  { s.saveOutgoing.loadWindow req with rtcWindowActive := false, ramBankIndex := req }

/-- `changeRamBank(req)` (R123, R124): the range first, then the no-op, then the swap. -/
def changeRamBank (req : Byte) (s : State) : Result :=
  if s.config.maxRamBanks ≤ req.toNat then .fault (.ramBankRange req)
  else if req.toNat = s.ramBankIndex ∧ s.rtcWindowActive = false then .next s
  else .next (swapRamBank req.toNat s)

/-- `accessRtc(sel)` (R126): save the outgoing bank, zero the window, set the flag; the selector is not kept. -/
def accessRtc (s : State) : State := { s.saveOutgoing.zeroWindow with rtcWindowActive := true }

/-- `updateRtcTime()` (R128): the placeholder that does nothing. -/
def updateRtcTime (s : State) : State := s

end Sys2Proof.Machine
end

