-- ==== Sys2Proof/Machine/Mbc.lean ====
section
/-! DEFINITION. The MBC protocol dispatcher (spec/42_mbc_dispatch.md): what each of the fourteen commands of a WRITE below
0x8000 does. Nothing is stored at the written address (R140). Which command a write selects is the decoder's (R83): a
meaning does not test the family again (assumption 18). -/

namespace Sys2Proof.Machine

/-- `UNSUP.W` (R160): one event, nothing else. -/
def execUnsupW (a : Addr) (v : Byte) (s : State) : Result :=
  s.whenLive .write fun s => .next (s.emit (.unsupportedController s.controllerKind a v))

/-- `LATCH.NOP` (R141). -/
def execLatchNop (_a : Addr) (_v : Byte) (s : State) : Result :=
  s.whenLive .write fun s => .next s

/-- `NONE.IGN` (R142). -/
def execNoneIgn (_a : Addr) (_v : Byte) (s : State) : Result :=
  s.whenLive .write fun s => .next s

/-- `MBC1.ROMB` (R143). -/
def execMbc1Romb (_a : Addr) (v : Byte) (s : State) : Result :=
  s.whenLive .write fun s => .next (changeRomBank (mbc1Bank s.bankModeFlag s.bankModeData v) s)

/-- `MBC1.STASH` (R144): the ROM bank is not switched now. -/
def execMbc1Stash (_a : Addr) (v : Byte) (s : State) : Result :=
  s.whenLive .write fun s => .next { s with bankModeData := stashOf v }

/-- `MBC1.RAMB` (R145). -/
def execMbc1Ramb (_a : Addr) (v : Byte) (s : State) : Result :=
  s.whenLive .write (changeRamBank v)

/-- `MBC1.MODE` (R146, R147): the mode alone. -/
def execMbc1Mode (_a : Addr) (v : Byte) (s : State) : Result :=
  s.whenLive .write fun s => .next { s with bankModeFlag := bankModeOf v }

/-- `MBC3.ROMB` (R148). -/
def execMbc3Romb (_a : Addr) (v : Byte) (s : State) : Result :=
  s.whenLive .write fun s => .next (changeRomBank (mbc3Bank v) s)

/-- `MBC3.RAMB` (R150). -/
def execMbc3Ramb (_a : Addr) (v : Byte) (s : State) : Result :=
  s.whenLive .write (changeRamBank v)

/-- `MBC3.RTCSEL` (R151). -/
def execMbc3Rtcsel (_a : Addr) (_v : Byte) (s : State) : Result :=
  s.whenLive .write fun s => .next (accessRtc s)

/-- `MBC3.LATCH` (R152). -/
def execMbc3Latch (_a : Addr) (_v : Byte) (s : State) : Result :=
  s.whenLive .write fun s => .next (updateRtcTime s)

/-- `MBC5.ROMB` (R153). -/
def execMbc5Romb (_a : Addr) (v : Byte) (s : State) : Result :=
  s.whenLive .write fun s => .next (changeRomBank (mbc5Bank v) s)

/-- `MBC5.RAMB` (R154). -/
def execMbc5Ramb (_a : Addr) (v : Byte) (s : State) : Result :=
  s.whenLive .write (changeRamBank v)

/-- `MBC5.NA` (R155). -/
def execMbc5Na (_a : Addr) (_v : Byte) (s : State) : Result :=
  s.whenLive .write fun s => .next s

end Sys2Proof.Machine
end

