-- ==== Sys2Proof/Machine/Dispatch.lean ====
section
/-! DEFINITION. The meaning of every instruction, one arm per constructor of `Instr`. -/

namespace Sys2Proof.Machine

def exec (i : Instr) (s : State) : Host.Outcome State Fault Refusal :=
  match i with
  -- spec/42_mbc_dispatch.md
  | .unsupW a v => Sys2Proof.Machine.execUnsupW a v s
  | .latchNop a v => Sys2Proof.Machine.execLatchNop a v s
  | .noneIgn a v => Sys2Proof.Machine.execNoneIgn a v s
  | .mbc1Romb a v => Sys2Proof.Machine.execMbc1Romb a v s
  | .mbc1Stash a v => Sys2Proof.Machine.execMbc1Stash a v s
  | .mbc1Ramb a v => Sys2Proof.Machine.execMbc1Ramb a v s
  | .mbc1Mode a v => Sys2Proof.Machine.execMbc1Mode a v s
  | .mbc3Romb a v => Sys2Proof.Machine.execMbc3Romb a v s
  | .mbc3Ramb a v => Sys2Proof.Machine.execMbc3Ramb a v s
  | .mbc3Rtcsel a v => Sys2Proof.Machine.execMbc3Rtcsel a v s
  | .mbc3Latch a v => Sys2Proof.Machine.execMbc3Latch a v s
  | .mbc5Romb a v => Sys2Proof.Machine.execMbc5Romb a v s
  | .mbc5Ramb a v => Sys2Proof.Machine.execMbc5Ramb a v s
  | .mbc5Na a v => Sys2Proof.Machine.execMbc5Na a v s
  -- spec/43_register_interceptor.md and spec/44_invalidation.md
  | .timerW v => Sys2Proof.Machine.execTimerW v s
  | .inputW v => Sys2Proof.Machine.execInputW v s
  | .serialW v => Sys2Proof.Machine.execSerialW v s
  | .dmaW v => Sys2Proof.Machine.execDmaW v s
  | .rtcwinW a v => Sys2Proof.Machine.execRtcwinW a v s
  | .hramW a v => Sys2Proof.Machine.execHramW a v s
  | .storeW a v => Sys2Proof.Machine.execStoreW a v s
  -- spec/40_mapper_lifecycle.md
  | .read a => Sys2Proof.Machine.execRead a s
  | .init src => Sys2Proof.Machine.execInit src s
  | .free => Sys2Proof.Machine.execFree s
  | .dump => Sys2Proof.Machine.execDump s

end Sys2Proof.Machine
end

