-- ==== Sys2Proof/Machine/Step.lean ====
section
/-! DEFINITION. One step: the block takes the oldest input of its inbox (spec/00_scope.md R12, R13). The block has no
program counter (spec/10_state.md R24): the order of operations is the order in which they are requested. -/

namespace Sys2Proof.Machine

/-- Take one input. A request is decoded in the present context and performed (R83); a change of the input lines or of
a table entry lands between two operations (R12, R31); with nothing asked for, the block waits (R197, R220). -/
def step (s : State) : Host.Outcome State Fault Refusal :=
  match s.inbox with
  | [] => .next s
  | .setInputs lines :: rest => .next { s with inputs := lines, inbox := rest }
  | .setEntry slot entry :: rest => .next { s with blockTable := s.blockTable.set slot entry, inbox := rest }
  | .request req :: rest =>
    match decode s.decodeCtx req with
    | .ok i => exec i (s.accept rest)
    | .error why => .refused (.malformedRequest why)

/-- The state in which the next step performs the request that a bare word stands for: it is put at the head of the
inbox. A word of no format's width stands for no request, and nothing is put there (assumptions 2, 3). -/
def State.withFetchWord (s : State) (nbits w : Nat) : State :=
  match requestOfBits nbits w with
  | .ok req => { s with inbox := .request req :: s.inbox }
  | .error _ => s

end Sys2Proof.Machine
end

