-- ==== Sys2Proof/Safety.lean ====
section
/-! DEFINITION. What a legal state of the block is: the invariants of spec/10_state.md R32 and R33 with the canonical form
of the byte spaces, in the terms the claims use. -/

namespace Sys2Proof.Machine

/-- The family of the controller (R22). -/
def State.family (s : State) : Family := s.controllerKind.family

/-- The family is one whose commands switch no bank (R129). -/
def State.switchesNoBank (s : State) : Prop := s.family = .none ∨ s.family = .mbc2 ∨ s.family = .unsupported

/-- The address lies in the RAM window `[0xA000,0xC000)`. -/
def inRamWindow (a : Addr) : Prop := ramWindowBase ≤ a.toNat ∧ a.toNat < ramWindowBase + ramBankSize

/-- The address lies in the sprite-attribute region `[0xFE00,0xFEA0)`. -/
def inOam (a : Addr) : Prop := oamBase ≤ a.toNat ∧ a.toNat < oamBase + dmaLength

/-- Which of the five operations an instruction is: a write command is a WRITE (R80, R198). -/
def operationOf : Instr → OpName
  | .read _ => .read
  | .init _ => .init
  | .free => .free
  | .dump => .dump
  | .unsupW _ _ => .write
  | .latchNop _ _ => .write
  | .noneIgn _ _ => .write
  | .mbc1Romb _ _ => .write
  | .mbc1Stash _ _ => .write
  | .mbc1Ramb _ _ => .write
  | .mbc1Mode _ _ => .write
  | .mbc3Romb _ _ => .write
  | .mbc3Ramb _ _ => .write
  | .mbc3Rtcsel _ _ => .write
  | .mbc3Latch _ _ => .write
  | .mbc5Romb _ _ => .write
  | .mbc5Ramb _ _ => .write
  | .mbc5Na _ _ => .write
  | .timerW _ => .write
  | .inputW _ => .write
  | .serialW _ => .write
  | .dmaW _ => .write
  | .rtcwinW _ _ => .write
  | .hramW _ _ => .write
  | .storeW _ _ => .write

/-- The commands that select a ROM bank. -/
def selectsRomBank (i : Instr) : Prop :=
  ∃ a v, i = .mbc1Romb a v ∨ i = .mbc3Romb a v ∨ i = .mbc5Romb a v

/-- The commands that select a RAM bank. -/
def selectsRamBank (i : Instr) : Prop :=
  ∃ a v, i = .mbc1Ramb a v ∨ i = .mbc3Ramb a v ∨ i = .mbc5Ramb a v

/-- What a ROM-bank-select command does once its bank number is known (R120, R121): nothing if the bank is the current
one, the selection if the bank exists, one event if it does not. -/
def performsRomBankChange (i : Instr) (bank : BankNo) (s : State) : Prop :=
  (bank = s.romBankIndex → exec i s = .next s) ∧
  (bank ≠ s.romBankIndex → bank.toNat < s.romBanks → exec i s = .next { s with romBankIndex := bank }) ∧
  (bank ≠ s.romBankIndex → s.romBanks ≤ bank.toNat →
    exec i s = .next { s with sink := s.sink ++ [.remapError bank] })

/-- The invariant of the block between two operations. -/
structure State.Inv (s : State) : Prop where
  /-- AS is in canonical form and lists addresses of the 64 KiB space (R21) -/
  spaceWf : Memory.wf s.addressSpace
  spaceWithin : Memory.within s.addressSpace 0 asSize
  /-- STORE is in canonical form and has `MAX_RAM_BANKS` slots (R27) -/
  storeWf : Memory.wf s.ramBankStore
  storeWithin : Memory.within s.ramBankStore 0 (s.config.maxRamBanks * ramBankSize)
  /-- R33 (b) -/
  ramBankInRange : s.ramBankIndex < s.config.maxRamBanks
  /-- R33 (c) -/
  stashLowBitsZero : s.bankModeData &&& 0x1F = 0
  /-- R28: only MBC1's commands write the two auxiliary registers -/
  auxiliaryOnlyMbc1 : s.family ≠ .mbc1 → s.bankModeFlag = .rom ∧ s.bankModeData = 0
  /-- R33 (d) -/
  rtcOnlyMbc3 : s.rtcWindowActive = true → s.family = .mbc3
  /-- R33 (e), R127 -/
  rtcReadsZero : s.rtcWindowActive = true → ∀ a, inRamWindow a → s.readByte a = 0
  /-- R25, R33 (a): never 0 where the controller disallows it -/
  romBankForced : s.family = .mbc1 ∨ s.family = .mbc3 → s.romBankIndex ≠ 0
  /-- R33 (a), R129 -/
  banksKept : s.switchesNoBank → s.romBankIndex = 1 ∧ s.ramBankIndex = 0
  /-- R22, R33 (a), R101: the image is a byte string of at least 32 KiB, its header byte gave the kind, the bank exists -/
  cartridge : ∀ img, s.cartridgeHandle = some img →
    img.wf = true ∧ 0x8000 ≤ img.len ∧ s.controllerKind = kindOfCode s.config (imageByte img 0x147) ∧
      s.romBankIndex.toNat < s.romBanks
  /-- R63: with a cartridge nothing is stored in the ROM region -/
  romNotStored : s.cartridgeHandle ≠ none → Memory.within s.addressSpace 0x8000 asSize
  /-- R104 -/
  anonymousKind : s.cartridgeHandle = none → s.controllerKind = .none
  /-- R105, R173: a READ of the timer reset register returns 0x00 always -/
  timerReadsZero : s.readByte s.config.addrTimerReset = 0
  /-- R38: the nine items exist only in phase LIVE -/
  itemsOnlyLive : s.phase ≠ .live → s.withoutItems = s

end Sys2Proof.Machine
end

