-- ==== Sys2Proof/Certificates/Slice0/Obligations.lean ====
section
/-! DEFINITION. The statements for the provers. Each docstring names the rule of spec/ it formalises. -/

open Sys2Proof Sys2Proof.Machine

/-! ## Reset and the lifecycle operations -/

/-- R39, both columns: the state after a successful INIT, what it returns, and everything INIT does not set. The zero
values rest on the spec's decision D19 (assumption 15), the kind without a cartridge on D29, the length test on D8, the
empty sink on D25 (assumption 26); that `releaseCalls` is kept is the model's choice (assumption 7). -/
def Obligations.InitGivesTheStatedResetTable : Prop :=
  (∀ (s : State) (img : Image), s.phase = .uninit → s.inputs.openOk = true → s.inputs.mapOk = true →
    0x8000 ≤ img.len →
    ∃ t, exec (.init (.cartridge img)) s = .next t ∧
      (∀ a : Addr, a.toNat < 0x8000 → t.readByte a = imageByte img a.toNat) ∧
      (∀ a : Addr, 0x8000 ≤ a.toNat → t.readByte a = 0) ∧
      t.controllerKind = kindOfCode s.config (imageByte img 0x147) ∧ t.romBankIndex = 1 ∧ t.ramBankIndex = 0 ∧
      (∀ b o, Memory.read t.ramBankStore (b * 0x2000 + o) = 0) ∧ t.bankModeFlag = .rom ∧ t.bankModeData = 0 ∧
      t.rtcWindowActive = false ∧ t.cartridgeHandle = some img ∧ t.phase = .live ∧ t.blockTable = s.blockTable ∧
      t.sink = [] ∧ t.reply = .initialised ∧
      t.config = s.config ∧ t.inputs = s.inputs ∧ t.inbox = s.inbox ∧ t.releaseCalls = s.releaseCalls) ∧
  (∀ (s : State), s.phase = .uninit → s.inputs.mapOk = true →
    ∃ t, exec (.init (.anonymous [])) s = .next t ∧
      (∀ a : Addr, t.readByte a = 0) ∧
      t.controllerKind = .none ∧ t.romBankIndex = 1 ∧ t.ramBankIndex = 0 ∧
      (∀ b o, Memory.read t.ramBankStore (b * 0x2000 + o) = 0) ∧ t.bankModeFlag = .rom ∧ t.bankModeData = 0 ∧
      t.rtcWindowActive = false ∧ t.cartridgeHandle = none ∧ t.phase = .live ∧ t.blockTable = s.blockTable ∧
      t.sink = [] ∧ t.reply = .initialised ∧
      t.config = s.config ∧ t.inputs = s.inputs ∧ t.inbox = s.inbox ∧ t.releaseCalls = s.releaseCalls)

/-- R230 with R39, column without a cartridge: `State.reset` holds the stated values, and it is what INIT NONE answers
from the state before any INIT. That `State.reset` is the state after INIT NONE is the model's reading (assumption 1).
The zeros are the spec's decision D19 (assumption 15), the kind none its decision D29, the empty sink its decision D25
(assumption 26); what the spec gives no value (the inputs, the table, the configuration) is assumptions 4, 5 and 9. -/
def Obligations.ResetIsWhatInitNoneAnswers : Prop :=
  exec (.init (.anonymous [])) State.powerOn = .next State.reset ∧
  State.reset.phase = .live ∧ (∀ a, State.reset.readByte a = 0) ∧ State.reset.romBankIndex = 1 ∧
  State.reset.ramBankIndex = 0 ∧ State.reset.controllerKind = .none ∧ State.reset.sink = []

/-- R64, R104, and R39's column without a cartridge: INIT without a cartridge, with the host's preload of the lower half
(the spec's decision D29, as is the kind none); `OpenOk` is not consulted. That the upper half, STORE, the mode, the stash
and the RTC flag are zero rests on the spec's decision D19 (assumption 15, PRESUMED), the empty sink on D25 (assumption
26); that `releaseCalls` is kept is the model's choice (assumption 7). -/
def Obligations.InitWithoutCartridgeShowsThePreload : Prop :=
  ∀ (s : State) (preload : Memory), s.phase = .uninit → s.inputs.mapOk = true →
    (Source.anonymous preload).wf = true →
    ∃ t, exec (.init (.anonymous preload)) s = .next t ∧ t.phase = .live ∧ t.controllerKind = .none ∧
      t.cartridgeHandle = none ∧
      (∀ a : Addr, a.toNat < 0x8000 → t.readByte a = Memory.read preload a.toNat) ∧
      (∀ a : Addr, 0x8000 ≤ a.toNat → t.readByte a = 0) ∧
      t.romBankIndex = 1 ∧ t.ramBankIndex = 0 ∧ (∀ b o, Memory.read t.ramBankStore (b * 0x2000 + o) = 0) ∧
      t.bankModeFlag = .rom ∧ t.bankModeData = 0 ∧ t.rtcWindowActive = false ∧ t.blockTable = s.blockTable ∧
      t.sink = [] ∧ t.reply = .initialised ∧
      t.config = s.config ∧ t.inputs = s.inputs ∧ t.inbox = s.inbox ∧ t.releaseCalls = s.releaseCalls

/-- R101, R102, R211 (b): the first failing step is the one reported, the phase stays UNINIT, nothing but the reply
changes, and every operation other than INIT then faults. The length test is the spec's decision D8, what is accepted
afterwards its decision D22 (assumption 19). That nothing but the reply changes is the model's in two places: the sink is
kept (assumption 26), and the fields of the nine items, which do not exist in phase UNINIT, keep what they held
(assumption 11). -/
def Obligations.InitErrorRetainsNothing : Prop :=
  ∀ (s : State) (src : Source) (failed : InitStep), s.phase = .uninit →
    ((∃ img, src = .cartridge img ∧
        ((s.inputs.openOk = false ∧ failed = .opening) ∨
         (s.inputs.openOk = true ∧ (img.len < 0x8000 ∨ s.inputs.mapOk = false) ∧ failed = .mapping))) ∨
     (∃ preload, src = .anonymous preload ∧ s.inputs.mapOk = false ∧ failed = .mapping)) →
    exec (.init src) s = .next { s with reply := .error (.initError failed) } ∧
    ∀ i, operationOf i ≠ .init →
      exec i { s with reply := .error (.initError failed) } = .fault (.lifecycle (operationOf i) .uninit)

/-- R38: what each phase accepts, and the fault of everything else; the phase each operation leaves. The phases and
the fault are the spec's decision D22. -/
def Obligations.OperationsOutOfPhaseFault : Prop :=
  ∀ (i : Instr) (s : State),
    (operationOf i = .init → s.phase ≠ .uninit → exec i s = .fault (.lifecycle .init s.phase)) ∧
    (operationOf i ≠ .init → s.phase ≠ .live → exec i s = .fault (.lifecycle (operationOf i) s.phase)) ∧
    (∀ op p, exec i s = .fault (.lifecycle op p) →
      op = operationOf i ∧ p = s.phase ∧ (op = .init ∧ p ≠ .uninit ∨ op ≠ .init ∧ p ≠ .live)) ∧
    (∀ t, exec i s = .next t →
      (operationOf i = .init → (t.reply = .initialised ∧ t.phase = .live) ∨
        (∃ e, t.reply = .error (.initError e)) ∧ t.phase = .uninit) ∧
      (operationOf i = .free → t.phase = .freed) ∧
      (operationOf i ≠ .init → operationOf i ≠ .free → t.phase = .live))

/-- R105: READ returns `AS[a]` and changes nothing but the reply; in the ROM region the byte is ROM(a), in the RTC
view the window reads zero, and the timer reset register reads zero always. The fault is the spec's decision D22; the
last two clauses are derived by the spec and rest on its decisions D11 and D13 (the window) and D19 (the timer's zero after
INIT; assumption 15). -/
def Obligations.ReadReturnsTheByteAndChangesNothing : Prop :=
  ∀ (s : State) (a : Addr),
    (s.phase = .live → exec (.read a) s = .next { s with reply := .value (s.readByte a) }) ∧
    (s.phase ≠ .live → exec (.read a) s = .fault (.lifecycle .read s.phase)) ∧
    (∀ img, s.cartridgeHandle = some img → a.toNat < 0x8000 → s.readByte a = romByte img s.romBankIndex a) ∧
    (s.Inv → s.rtcWindowActive = true → inRamWindow a → s.readByte a = 0) ∧
    (s.Inv → s.readByte s.config.addrTimerReset = 0)

/-- R106: FREE releases the nine items, leaves the phase FREED and does not touch the table. That the fields of the
released items hold the values of `State.withoutItems` is the model's choice (assumption 11), and so is that the sink, the
input lines and the inbox stay (assumption 26, a reading of R106 that R106 does not state) and that the record of release
calls stays (assumption 7). -/
def Obligations.FreeReleasesEverything : Prop :=
  ∀ s : State, s.phase = .live →
    (s.inputs.unmapOk = true →
      exec .free s = .next { s.withoutItems with phase := .freed, reply := .none }) ∧
    (s.inputs.unmapOk = false →
      exec .free s = .next { s.withoutItems with phase := .freed, reply := .error .teardownError })

/-- R107: the unmap failure is reported after the work: the phase is FREED, everything is released as without the failure,
the result is the error. That a second FREE faults is not R107's but R38's, by the spec's decision D22 (assumption 19). -/
def Obligations.TeardownErrorIsReportedAfterTheRelease : Prop :=
  ∀ s : State, s.phase = .live → s.inputs.unmapOk = false →
    ∃ t u, exec .free s = .next t ∧ exec .free { s with inputs := { s.inputs with unmapOk := true } } = .next u ∧
      t.phase = .freed ∧ t.reply = .error .teardownError ∧ u.reply = .none ∧
      { t with reply := u.reply, inputs := u.inputs } = u ∧
      exec .free t = .fault (.lifecycle .free .freed)

/-- R236: nothing of one instance survives FREE: two live machines that differ in the nine items alone are the same
machine after it. The fault is the spec's decision D22; that the fields of `State.withoutItems` stand for items that
no longer exist is the model's choice (assumption 11). -/
def Obligations.NothingOfTheInstanceSurvivesFree : Prop :=
  ∀ s s' : State, s.phase = .live → s'.phase = .live → s.withoutItems = s'.withoutItems →
    exec .free s = exec .free s' ∧
    ∀ t i, exec .free s = .next t → exec i t = .fault (.lifecycle (operationOf i) .freed)

/-- R108: DUMP returns the raw header bytes as READ would show them, and changes nothing but the reply. That the bytes
are raw is the spec's decision D24. -/
def Obligations.DumpReturnsTheHeaderBytes : Prop :=
  ∀ s : State, s.phase = .live →
    ∃ d, exec .dump s = .next { s with reply := .summary d } ∧
      (∀ k : Fin 15, d.title[k] = s.readByte (BitVec.ofNat 16 (0x0134 + k.val))) ∧
      (∀ k : Fin 4, d.manufacturer[k] = s.readByte (BitVec.ofNat 16 (0x013F + k.val))) ∧
      (∀ k : Fin 4, d.manufacturer[k] = d.title[k.val + 11]) ∧
      d.kindCode = s.readByte 0x0147 ∧ d.romSizeCode = s.readByte 0x0148 ∧ d.ramSizeCode = s.readByte 0x0149

/-! ## The ROM region and the ROM-bank commands -/

/-- R61: what the ROM region shows with a cartridge, and that the offset stays inside the image. How many banks an
image has is the spec's decision D8. -/
def Obligations.RomRegionShowsTheImage : Prop :=
  ∀ (s : State) (img : Image) (a : Addr), s.cartridgeHandle = some img → a.toNat < 0x8000 →
    (a.toNat < 0x4000 → s.readByte a = imageByte img a.toNat) ∧
    (0x4000 ≤ a.toNat →
      s.readByte a = imageByte img (s.romBankIndex.toNat * 0x4000 + (a.toNat - 0x4000)) ∧
      (s.Inv → s.romBankIndex.toNat * 0x4000 + (a.toNat - 0x4000) < img.len))

/-- R122: a ROM bank change touches nothing but `romBankIndex` and the sink, and what the window shows afterwards
depends on the bank and the image alone, whatever was selected before. The laws are derived by the spec; when a bank
exists, and that an existing bank is always selected, is its decision D8 (assumption 14). -/
def Obligations.RomWindowDependsOnTheBankAlone : Prop :=
  (∀ (s : State) (b : BankNo),
    changeRomBank b s =
      { s with romBankIndex := (changeRomBank b s).romBankIndex, sink := (changeRomBank b s).sink } ∧
    ∀ a : Addr, 0x8000 ≤ a.toNat → (changeRomBank b s).readByte a = s.readByte a) ∧
  (∀ (s : State) (img : Image) (b c : BankNo) (a : Addr), s.cartridgeHandle = some img →
    b.toNat < s.romBanks → c.toNat < s.romBanks → 0x4000 ≤ a.toNat → a.toNat < 0x8000 →
    (changeRomBank b s).readByte a = imageByte img (b.toNat * 0x4000 + (a.toNat - 0x4000)) ∧
    (changeRomBank b (changeRomBank c (changeRomBank b s))).readByte a = (changeRomBank b s).readByte a)

/-- R143: mask to five bits, combine with the stash in mode 0, force 0 to 1, then change the ROM bank. The order of
the steps is the spec's decision D9 (assumption 25), when the bank exists and is selected its decision D8 (assumption 14),
the event's place in the sink its decision D25. -/
def Obligations.Mbc1RombSelectsTheCombinedBank : Prop :=
  ∀ (s : State) (a : Addr) (v : Byte), s.phase = .live →
    ∀ low combined bank : BankNo,
      low = (v &&& 0x1F#8).setWidth 13 →
      combined = (if s.bankModeFlag = .rom then low ||| s.bankModeData else low) →
      bank = (if combined = 0 then 1 else combined) →
      performsRomBankChange (.mbc1Romb a v) bank s

/-- R148: mask to seven bits, force 0 to 1, then change the ROM bank. When the bank exists and
is selected is the spec's decision D8 (assumption 14), the event's place in the sink its decision D25. -/
def Obligations.Mbc3RombSelectsTheMaskedBank : Prop :=
  ∀ (s : State) (a : Addr) (v : Byte), s.phase = .live →
    ∀ low bank : BankNo,
      low = (v &&& 0x7F#8).setWidth 13 →
      bank = (if low = 0 then 1 else low) →
      performsRomBankChange (.mbc3Romb a v) bank s

/-- R153: all eight bits, no forcing. When the bank exists and is selected is the spec's decision D8
(assumption 14), the event's place in the sink its decision D25. -/
def Obligations.Mbc5RombSelectsTheValue : Prop :=
  ∀ (s : State) (a : Addr) (v : Byte), s.phase = .live →
    ∀ bank : BankNo, bank.toNat = v.toNat → performsRomBankChange (.mbc5Romb a v) bank s

/-- R144: the stash is `value << 5` on 13 bits, no bit lost, and nothing else changes. That no bit is masked is the
spec's decision D10. -/
def Obligations.Mbc1StashKeepsTheShiftedValue : Prop :=
  ∀ (s : State) (a : Addr) (v : Byte), s.phase = .live →
    ∃ stash : BankNo, exec (.mbc1Stash a v) s = .next { s with bankModeData := stash } ∧
      stash = v.setWidth 13 <<< 5 ∧ stash.toNat = v.toNat * 32

/-- R146: the words of family MBC1 in `[0x6000,0x8000)` are the command; the low bit selects the mode, and nothing else
changes. -/
def Obligations.Mbc1ModeTakesTheLowBit : Prop :=
  (∀ (x : DecodeCtx) (word : BitVec 24), x.family = .mbc1 → word &&& 0xE00000 = 0x600000 →
    decode x (.wr word) = .ok (.mbc1Mode (wordAddr word) (wordValue word))) ∧
  (∀ (s : State) (a : Addr) (v : Byte), s.phase = .live →
    (v &&& 1#8 = 0#8 → exec (.mbc1Mode a v) s = .next { s with bankModeFlag := .rom }) ∧
    (v &&& 1#8 = 1#8 → exec (.mbc1Mode a v) s = .next { s with bankModeFlag := .ram }))

/-- R147: a mode write, in either mode, moves no bank and keeps the stash, so any number of them does; the first ROM-bank
select made in mode 0 combines the stash again (R143); and the rule's own six-write sequence. Where the low five bits are 0
and the stash is not, that the stash itself is the bank is the spec's decision D9 (assumption 25, PRESUMED); that a bank
the image has is always selected is its decision D8 (assumption 14). -/
def Obligations.Mbc1ModeWriteDoesNotReinterpretTheStash : Prop :=
  (∀ (s : State) (m : BankMode) (a : Addr) (v : Byte), s.phase = .live →
    exec (.mbc1Mode a v) { s with bankModeFlag := m } = .next { s with bankModeFlag := bankModeOf v }) ∧
  (∀ (s : State) (c : Addr) (v : Byte) (combined : BankNo), s.phase = .live → s.bankModeFlag = .rom →
    combined = (v &&& 0x1F#8).setWidth 13 ||| s.bankModeData → combined ≠ 0 → combined.toNat < s.romBanks →
    exec (.mbc1Romb c v) s = .next { s with romBankIndex := combined }) ∧
  (∀ (s : State) (a b c : Addr), s.phase = .live → s.bankModeFlag = .rom → 0x23 < s.romBanks →
    ∃ t1 t2 t3 t4 t5 t6,
      exec (.mbc1Stash b 0x01) s = .next t1 ∧ t1.bankModeData = 0x20 ∧ t1.romBankIndex = s.romBankIndex ∧
      exec (.mbc1Romb a 0x03) t1 = .next t2 ∧ t2.romBankIndex = 0x23 ∧
      exec (.mbc1Mode c 0x01) t2 = .next t3 ∧ t3.romBankIndex = 0x23 ∧
      exec (.mbc1Romb a 0x03) t3 = .next t4 ∧ t4.romBankIndex = 0x03 ∧
      exec (.mbc1Mode c 0x00) t4 = .next t5 ∧ t5.romBankIndex = 0x03 ∧
      exec (.mbc1Romb a 0x03) t5 = .next t6 ∧ t6.romBankIndex = 0x23)

/-! ## Commands without effect, and the reported command -/

/-- R141, R142: every word below 0x2000 of a supported family is LATCH.NOP, every word of `[0x2000,0x8000)` of family NONE
is NONE.IGN, and both change nothing at all. -/
def Obligations.LatchAndFamilyNoneWritesChangeNothing : Prop :=
  (∀ (x : DecodeCtx) (word : BitVec 24), x.family ≠ .mbc2 → x.family ≠ .unsupported → word &&& 0xE00000 = 0x000000 →
    decode x (.wr word) = .ok (.latchNop (wordAddr word) (wordValue word))) ∧
  (∀ (x : DecodeCtx) (word : BitVec 24), x.family = .none → word &&& 0x800000 = 0x000000 →
    word &&& 0xE00000 ≠ 0x000000 → decode x (.wr word) = .ok (.noneIgn (wordAddr word) (wordValue word))) ∧
  (∀ (s : State) (a : Addr) (v : Byte), s.phase = .live →
    exec (.latchNop a v) s = .next s ∧ exec (.noneIgn a v) s = .next s)

/-- R152 with R128, R155, R177: the RTC latch, the MBC5 write above 0x5FFF and a store into the RTC view complete and change
nothing. They rest on the spec's decisions D14 (the first two) and D13 (the third). -/
def Obligations.PlaceholderWritesChangeNothing : Prop :=
  ∀ (s : State) (a : Addr) (v : Byte), s.phase = .live →
    exec (.mbc3Latch a v) s = .next s ∧ exec (.mbc5Na a v) s = .next s ∧ exec (.rtcwinW a v) s = .next s

/-- R160: every write below 0x8000 of family MBC2 or UNSUPPORTED is the reported command, and it emits exactly one
event and changes nothing else. MBC2 is the spec's decision D5, the report below 0x2000 its decision D15, the
event's place in the sink its decision D25; that the kind carries its header code is assumption 22. -/
def Obligations.UnsupportedControllerWriteIsReported : Prop :=
  (∀ (x : DecodeCtx) (a : Addr) (v : Byte), x.family = .mbc2 ∨ x.family = .unsupported → a.toNat < 0x8000 →
    decodeWrite x a v = .unsupW a v) ∧
  (∀ (s : State) (a : Addr) (v : Byte), s.phase = .live →
    exec (.unsupW a v) s = .next { s with sink := s.sink ++ [.unsupportedController s.controllerKind a v] })

/-! ## The RAM-bank commands and the RTC view -/

/-- R123, R124: a RAM-bank select of MBC1, MBC3 or MBC5. Out of range it faults; otherwise the window shows the live
bytes of the requested bank, the outgoing bank is in its slot (unless the window was the RTC view or the request was a
no-op), every other slot is as it was, the view is left, and nothing else changes. The fault is the spec's decision
D7, the no-op outside the view alone its decision D12. -/
def Obligations.RamBankSelectSwapsTheWindow : Prop :=
  ∀ (s : State) (a : Addr) (v : Byte) (i : Instr), s.phase = .live →
    i = .mbc1Ramb a v ∨ i = .mbc3Ramb a v ∨ i = .mbc5Ramb a v →
    (s.config.maxRamBanks ≤ v.toNat → exec i s = .fault (.ramBankRange v)) ∧
    (v.toNat < s.config.maxRamBanks →
      ∃ t, exec i s = .next t ∧
        t = { s with
              addressSpace := t.addressSpace, ramBankStore := t.ramBankStore,
              rtcWindowActive := false, ramBankIndex := v.toNat } ∧
        (∀ b : Addr, inRamWindow b → t.readByte b = s.ramByte v.toNat (b.toNat - 0xA000)) ∧
        (∀ b : Addr, ¬inRamWindow b → t.readByte b = s.readByte b) ∧
        (∀ b o, o < 0x2000 →
          Memory.read t.ramBankStore (b * 0x2000 + o) =
            if b = s.ramBankIndex ∧ s.rtcWindowActive = false ∧ v.toNat ≠ s.ramBankIndex
            then Memory.read s.addressSpace (0xA000 + o)
            else Memory.read s.ramBankStore (b * 0x2000 + o)))

/-- R125: a swap moves banks and never changes their content; it touches nothing but the window, STORE, the bank
number and the view flag. The laws are derived by the spec; they rest on its decision D12. -/
def Obligations.SwapKeepsEveryRamBankContent : Prop :=
  ∀ (s t : State) (req : Byte), changeRamBank req s = .next t →
    (∀ b o, o < 0x2000 → t.ramByte b o = s.ramByte b o) ∧
    t = { s with
          addressSpace := t.addressSpace, ramBankStore := t.ramBankStore,
          rtcWindowActive := t.rtcWindowActive, ramBankIndex := t.ramBankIndex } ∧
    (∀ a : Addr, ¬inRamWindow a → t.readByte a = s.readByte a) ∧
    t.ramBankIndex = req.toNat ∧ t.rtcWindowActive = false

/-- R124: among well-formed instructions the range fault is reachable only from MBC1.RAMB and MBC5.RAMB, and then it
carries the requested bank, which is out of range. The fault is the spec's decision D7. -/
def Obligations.RamBankRangeFaultOnlyFromMbc1AndMbc5 : Prop :=
  ∀ (i : Instr) (s : State) (bank : Byte), i.wf s.config = true → exec i s = .fault (.ramBankRange bank) →
    s.config.maxRamBanks ≤ bank.toNat ∧ ∃ a, i = .mbc1Ramb a bank ∨ i = .mbc5Ramb a bank

/-- R126: the RTC select saves an outgoing bank, zeroes the window, sets the flag, keeps the bank number and every
live RAM byte, and changes nothing else. The effect is the spec's decision D11. -/
def Obligations.RtcSelectSavesTheBankAndZeroesTheWindow : Prop :=
  ∀ (s : State) (a : Addr) (v : Byte), s.phase = .live →
    ∃ t, exec (.mbc3Rtcsel a v) s = .next t ∧
      t = { s with
            addressSpace := t.addressSpace, ramBankStore := t.ramBankStore, rtcWindowActive := true } ∧
      (∀ b : Addr, inRamWindow b → t.readByte b = 0) ∧
      (∀ b : Addr, ¬inRamWindow b → t.readByte b = s.readByte b) ∧
      (∀ b o, o < 0x2000 →
        Memory.read t.ramBankStore (b * 0x2000 + o) =
          if b = s.ramBankIndex ∧ s.rtcWindowActive = false
          then Memory.read s.addressSpace (0xA000 + o)
          else Memory.read s.ramBankStore (b * 0x2000 + o)) ∧
      (∀ b o, o < 0x2000 → t.ramByte b o = s.ramByte b o)

/-- R62 (the document's round trip): what bank r shows in the window while it is active comes back after a switch away,
any stores into the window while away, and the switch back. The swap rests on the spec's decision D12. -/
def Obligations.RamBankRoundTripRestoresThePattern : Prop :=
  ∀ (s : State) (r away : Byte) (a b : Addr) (stores : List (Addr × Byte)),
    s.phase = .live → s.rtcWindowActive = false → s.ramBankIndex = r.toNat → away ≠ r →
    r.toNat < s.config.maxRamBanks → away.toNat < s.config.maxRamBanks →
    (∀ w ∈ stores, inRamWindow w.1) →
    ∃ t u, exec (.mbc5Ramb a away) s = .next t ∧
      exec (.mbc5Ramb b r) (stores.foldl (fun m w => m.memWrite w.1 w.2) t) = .next u ∧
      ∀ x : Addr, u.readByte x = s.readByte x

/-- R150 with R123 (the document's MBC3 test): re-selecting the bank that was in the window when the RTC view was
entered leaves the view and brings the bank back, also after stores that the view drops and further selects. It rests
on the spec's decisions D11, D12 and D13. -/
def Obligations.LeavingTheRtcViewRestoresTheBank : Prop :=
  ∀ (s : State) (a b c d : Addr) (sel again v dropped : Byte),
    s.phase = .live → s.rtcWindowActive = false → s.ramBankIndex = v.toNat → v.toNat ≤ 4 →
    ∃ t1 t2 t3 t4, exec (.mbc3Rtcsel a sel) s = .next t1 ∧ exec (.rtcwinW b dropped) t1 = .next t2 ∧
      exec (.mbc3Rtcsel c again) t2 = .next t3 ∧ exec (.mbc3Ramb d v) t3 = .next t4 ∧
      t4.rtcWindowActive = false ∧ t4.ramBankIndex = s.ramBankIndex ∧
      (∀ x : Addr, inRamWindow x → t1.readByte x = 0 ∧ t3.readByte x = 0) ∧
      ∀ x : Addr, t4.readByte x = s.readByte x

/-! ## The register interceptor and the stores -/

/-- R170: every word from 0x8000 to 0xFF7F that is no special address, and not in the window during the RTC view, is
STORE.W; the byte is stored, every other byte reads as before, nothing but the address space changes, and a store into the
window outside the RTC view writes the live copy of the selected RAM bank. -/
def Obligations.StoreWritesOneByte : Prop :=
  (∀ (x : DecodeCtx) (word : BitVec 24), word &&& 0x800000 = 0x800000 → (wordAddr word).toNat < 0xFF80 →
    x.config.notSpecial (wordAddr word) = true → ¬(inRamWindow (wordAddr word) ∧ x.rtcWindowActive = true) →
    decode x (.wr word) = .ok (.storeW (wordAddr word) (wordValue word))) ∧
  (∀ (s : State) (a : Addr) (v : Byte), s.phase = .live → Memory.wf s.addressSpace →
    (Instr.storeW a v).wf s.config = true →
    ∃ t, exec (.storeW a v) s = .next t ∧ t = { s with addressSpace := t.addressSpace } ∧
      t.readByte a = v ∧ (∀ b, b ≠ a → t.readByte b = s.readByte b) ∧
      (inRamWindow a → s.rtcWindowActive = false → t.ramByte s.ramBankIndex (a.toNat - 0xA000) = v))

/-- R172: the byte is stored (the spec's decision D17) and nothing else happens. -/
def Obligations.SerialWriteStoresTheByte : Prop :=
  ∀ (s : State) (v : Byte), s.phase = .live → Memory.wf s.addressSpace →
    ∃ t, exec (.serialW v) s = .next t ∧ t = { s with addressSpace := t.addressSpace } ∧
      t.readByte s.config.addrSerialData = v ∧
      ∀ b, b ≠ s.config.addrSerialData → t.readByte b = s.readByte b

/-- R173: the words at the timer reset register are TIMER.W; any write clears the byte, every other byte reads as before,
and nothing but the address space changes. -/
def Obligations.TimerWriteClearsTheByte : Prop :=
  (∀ (x : DecodeCtx) (word : BitVec 24), word &&& 0xFFFF00 = addrPattern x.config.addrTimerReset →
    decode x (.wr word) = .ok (.timerW (wordValue word))) ∧
  (∀ (s : State) (v : Byte), s.phase = .live → Memory.wf s.addressSpace →
    ∃ t, exec (.timerW v) s = .next t ∧ t = { s with addressSpace := t.addressSpace } ∧
      t.readByte s.config.addrTimerReset = 0 ∧
      ∀ b, b ≠ s.config.addrTimerReset → t.readByte b = s.readByte b)

/-- R171: the stored byte is `0xF0 | (~n & 0x0F)` with `n` the OR of the requested groups; nothing else changes. Which bits
select, where the groups stand and the high nibble rest on the spec's decision D16 (assumption 16). -/
def Obligations.InputWriteStoresTheComplementedButtons : Prop :=
  ∀ (s : State) (v : Byte), s.phase = .live → Memory.wf s.addressSpace →
    ∀ dir act n : Byte,
      dir = s.inputs.buttons &&& 0x0F#8 → act = s.inputs.buttons >>> 4 →
      n = (if v &&& 0x10#8 = 0 then dir else 0) ||| (if v &&& 0x20#8 = 0 then act else 0) →
      ∃ t, exec (.inputW v) s = .next t ∧ t = { s with addressSpace := t.addressSpace } ∧
        t.readByte s.config.addrInputPoll = 0xF0#8 ||| (~~~n &&& 0x0F#8) ∧
        ∀ b, b ≠ s.config.addrInputPoll → t.readByte b = s.readByte b

/-- R174: the words at the DMA trigger are DMA.W; the trigger byte is stored, then the 160 bytes from `v * 256`, as they
then read, are in `[0xFE00,0xFEA0)`; no other byte and nothing else changes. -/
def Obligations.DmaWriteCopiesTheSource : Prop :=
  (∀ (x : DecodeCtx) (word : BitVec 24), word &&& 0xFFFF00 = addrPattern x.config.addrDmaTrigger →
    decode x (.wr word) = .ok (.dmaW (wordValue word))) ∧
  (∀ (s : State) (v : Byte), s.phase = .live → Memory.wf s.addressSpace →
    ∃ t, exec (.dmaW v) s = .next t ∧ t = { s with addressSpace := t.addressSpace } ∧
      t.readByte s.config.addrDmaTrigger = v ∧
      (∀ k, k < 160 → ∀ src : Addr, src.toNat = v.toNat * 256 + k →
        t.readByte (BitVec.ofNat 16 (0xFE00 + k)) = if src = s.config.addrDmaTrigger then v else s.readByte src) ∧
      ∀ b, b ≠ s.config.addrDmaTrigger → ¬inOam b → t.readByte b = s.readByte b)

/-- R175 (a) to (e): the corner cases of the DMA copy. The cases are derived by the spec; the zeros of
the RTC view rest on its decisions D11 and D13. -/
def Obligations.DmaCornerCases : Prop :=
  ∀ (s t : State) (v : Byte), s.Inv → exec (.dmaW v) s = .next t →
    (∀ k, k < 160 → v.toNat * 256 + k < 0x10000) ∧
    (v = 0xFE → ∀ b, inOam b → t.readByte b = s.readByte b) ∧
    (∀ img, s.cartridgeHandle = some img → v.toNat < 0x40 → ∀ k, k < 160 →
      t.readByte (BitVec.ofNat 16 (0xFE00 + k)) = imageByte img (v.toNat * 256 + k)) ∧
    (∀ img, s.cartridgeHandle = some img → 0x40 ≤ v.toNat → v.toNat < 0x80 → ∀ k, k < 160 →
      t.readByte (BitVec.ofNat 16 (0xFE00 + k))
        = imageByte img (s.romBankIndex.toNat * 0x4000 + (v.toNat * 256 + k - 0x4000))) ∧
    (s.rtcWindowActive = true → 0xA0 ≤ v.toNat → v.toNat < 0xC0 → ∀ b, inOam b → t.readByte b = 0) ∧
    (s.config.addrDmaTrigger = 0xFF46 → v = 0xFF → t.readByte 0xFE46 = 0xFF)

/-! ## High RAM and the invalidation scan -/

/-- R190: every word from 0xFF80 on is HRAM.W; the byte is stored, then the scan of R191 runs on that state; every other
byte reads as before, and nothing but the address space, the table and the release calls changes. -/
def Obligations.HighRamWriteStoresTheByte : Prop :=
  (∀ (x : DecodeCtx) (word : BitVec 24), word &&& 0xFF8000 = 0xFF8000 →
    decode x (.wr word) = .ok (.hramW (wordAddr word) (wordValue word))) ∧
  (∀ (s : State) (a : Addr) (v : Byte), s.phase = .live → Memory.wf s.addressSpace → 0xFF80 ≤ a.toNat →
    ∃ t, exec (.hramW a v) s = .next t ∧
      t = { s with
            addressSpace := t.addressSpace, blockTable := t.blockTable, releaseCalls := t.releaseCalls } ∧
      t = invalidationScan a { s with addressSpace := t.addressSpace } ∧
      t.readByte a = v ∧ ∀ b, b ≠ a → t.readByte b = s.readByte b)

/-- R191, R192: exactly the live entries of the slots below `a - 0xFF80` (and the slot equal to it if the scan is
configured inclusive) that end after `a` are released, each once and in ascending order, and their counts become zero;
every other entry is untouched. The bound rests on the spec's decision D18 (assumption 17), the order of the calls
on D27; that the calls are recorded in `releaseCalls` and do nothing else is the model's choice (assumption 7). -/
def Obligations.ScanReleasesExactlyTheCoveringBlocks : Prop :=
  ∀ (s t : State) (a : Addr) (v : Byte), 0xFF80 ≤ a.toNat → exec (.hramW a v) s = .next t →
    ∀ hit : Slot → Bool,
      (∀ i, hit i = true ↔
        (i.val + 0xFF80 < a.toNat ∨ (s.config.invalScanInclusive = true ∧ i.val + 0xFF80 = a.toNat)) ∧
          s.blockTable[i].executionCount ≠ 0 ∧ a.toNat < s.blockTable[i].endAddress.toNat) →
      (∀ i : Slot, t.blockTable[i]
        = if hit i then { s.blockTable[i] with executionCount := 0 } else s.blockTable[i]) ∧
      t.releaseCalls = s.releaseCalls ++ (List.finRange 0x80).filter hit

/-- R193 (a), (d), (f), (h): a write to 0xFF80 releases nothing with the bound as stated; an entry that ends at or
before its own start is never released; a second write to the same address releases nothing; one scan makes at most `a
- 0xFF80` calls, or one more if inclusive. The cases are derived by the spec; the parameter is its decision D18. -/
def Obligations.ScanCornerCases : Prop :=
  ∀ (s t u : State) (a : Addr) (v w : Byte), 0xFF80 ≤ a.toNat → exec (.hramW a v) s = .next t →
    exec (.hramW a w) t = .next u →
    (a = 0xFF80 → s.config.invalScanInclusive = false →
      t.blockTable = s.blockTable ∧ t.releaseCalls = s.releaseCalls) ∧
    (∀ i : Slot, s.blockTable[i].endAddress.toNat ≤ 0xFF80 + i.val → t.blockTable[i] = s.blockTable[i]) ∧
    u.blockTable = t.blockTable ∧ u.releaseCalls = t.releaseCalls ∧
    t.releaseCalls.length
      ≤ s.releaseCalls.length + (a.toNat - 0xFF80) + (if s.config.invalScanInclusive then 1 else 0)

/-! ## Decoding -/

/-- R83, R84: a few words written out from the map decode, in the context that selects them, to the commands they
stand for. The packing of the word is the spec's decision D2. The context is the default configuration: the clause on
0xFF46C0 rests on the default address of the DMA trigger, the spec's decision D3 (assumption 4, PRESUMED). -/
def Obligations.WrittenOutWordsDecode : Prop :=
  ∀ c : Config, c = Config.default →
    decode ⟨c, .mbc1, .rom, false⟩ (.wr 0x210003) = .ok (.mbc1Romb 0x2100 0x03) ∧
    decode ⟨c, .mbc1, .rom, false⟩ (.wr 0x400001) = .ok (.mbc1Stash 0x4000 0x01) ∧
    decode ⟨c, .mbc1, .ram, false⟩ (.wr 0x400002) = .ok (.mbc1Ramb 0x4000 0x02) ∧
    decode ⟨c, .mbc3, .rom, false⟩ (.wr 0x400004) = .ok (.mbc3Ramb 0x4000 0x04) ∧
    decode ⟨c, .mbc3, .rom, false⟩ (.wr 0x400005) = .ok (.mbc3Rtcsel 0x4000 0x05) ∧
    decode ⟨c, .mbc5, .rom, false⟩ (.wr 0x300000) = .ok (.mbc5Romb 0x3000 0x00) ∧
    decode ⟨c, .mbc3, .rom, true⟩ (.wr 0xA00077) = .ok (.rtcwinW 0xA000 0x77) ∧
    decode ⟨c, .none, .rom, false⟩ (.wr 0xFF46C0) = .ok (.dmaW 0xC0) ∧
    decode ⟨c, .none, .rom, false⟩ (.wr 0xFF95C9) = .ok (.hramW 0xFF95 0xC9)

/-- Decoding the encoding of a well-formed instruction, in any context that selects it, gives it back, with every operand
at every value. -/
def Obligations.DecodeOfEncodeGivesTheInstructionBack : Prop :=
  ∀ (x : DecodeCtx) (i : Instr), i.wf x.config = true → i.selectedIn x = true →
    decode x (encode x.config i) = .ok i

/-- R83, R86: what a request decodes to is well formed, is selected in that context, and encodes back to the request; and
every 24-bit word decodes in every context. So no two commands share a word in one context. -/
def Obligations.DecodedInstructionIsSelectedAndEncodesBack : Prop :=
  ∀ (x : DecodeCtx) (req : Request),
    (∀ i, decode x req = .ok i → i.wf x.config = true ∧ i.selectedIn x = true ∧ encode x.config i = req) ∧
    (∀ word, req = .wr word → ∃ i, decode x req = .ok i)

/-- R83 against R84: the pseudocode selects the candidate row with the smallest priority, and that row is the only one
with that priority: the two descriptions of the decode agree on every word in every context. -/
def Obligations.PriorityRowsAgreeWithTheDecode : Prop :=
  ∀ (x : DecodeCtx) (t : BitVec 24), ∃ r ∈ commandRows x.config,
    r.candidate x t = true ∧ r.make (wordAddr t) (wordValue t) = decodeWrite x (wordAddr t) (wordValue t) ∧
    ∀ r' ∈ commandRows x.config, r'.candidate x t = true → r'.mnemonic ≠ r.mnemonic → r.priority < r'.priority

/-- R86 (c): words that differ only in bits a command ignores have the same effect. Which bits INPUT.W reads is the spec's
decision D16. -/
def Obligations.IgnoredBitsHaveNoEffect : Prop :=
  ∀ (s : State) (a b : Addr) (v w : Byte),
    (v &&& 0x1F#8 = w &&& 0x1F#8 → exec (.mbc1Romb a v) s = exec (.mbc1Romb b w) s) ∧
    (v &&& 0x7F#8 = w &&& 0x7F#8 → exec (.mbc3Romb a v) s = exec (.mbc3Romb b w) s) ∧
    (v &&& 0x01#8 = w &&& 0x01#8 → exec (.mbc1Mode a v) s = exec (.mbc1Mode b w) s) ∧
    exec (.timerW v) s = exec (.timerW w) s ∧
    (v &&& 0x30#8 = w &&& 0x30#8 → exec (.inputW v) s = exec (.inputW w) s) ∧
    exec (.mbc1Stash a v) s = exec (.mbc1Stash b v) s ∧ exec (.mbc1Ramb a v) s = exec (.mbc1Ramb b v) s ∧
    exec (.mbc3Ramb a v) s = exec (.mbc3Ramb b v) s ∧ exec (.mbc3Rtcsel a v) s = exec (.mbc3Rtcsel b v) s ∧
    exec (.mbc5Romb a v) s = exec (.mbc5Romb b v) s ∧ exec (.mbc5Ramb a v) s = exec (.mbc5Ramb b v) s

/-! ## The step -/

/-- R12, R83: a step performs the instruction that the oldest request decodes to, on the state with that request taken and
the earlier reply gone (assumptions 2, 6). -/
def Obligations.StepPerformsTheDecodedRequest : Prop :=
  ∀ (s : State) (req : Request) (rest : List Event) (i : Instr), s.inbox = .request req :: rest →
    decode s.decodeCtx req = .ok i →
    step s = exec i { s with inbox := rest, reply := .none }

/-- R12, R31, R197 (assumptions 2, 5, 8, 21): with nothing asked for the block waits unchanged; a change of the input
lines or of a table entry changes that and nothing else. -/
def Obligations.StepTakesOutsideEvents : Prop :=
  ∀ s : State,
    (s.inbox = [] → step s = .next s) ∧
    (∀ lines rest, s.inbox = .setInputs lines :: rest → step s = .next { s with inputs := lines, inbox := rest }) ∧
    (∀ slot entry rest, s.inbox = .setEntry slot entry :: rest →
      ∃ t, step s = .next t ∧ t = { s with blockTable := t.blockTable, inbox := rest } ∧
        t.blockTable[slot] = entry ∧ ∀ j : Slot, j ≠ slot → t.blockTable[j] = s.blockTable[j])

/-- The model's fetch of a bare word (assumptions 2, 3): the next step performs it, and right after reset it performs what
`decodeTableWord` reads. -/
def Obligations.FetchedWordIsPerformedNext : Prop :=
  (∀ (s : State) (nbits w : Nat) (req : Request) (i : Instr), requestOfBits nbits w = .ok req →
    decode s.decodeCtx req = .ok i → step (s.withFetchWord nbits w) = exec i { s with reply := .none }) ∧
  (∀ (nbits w : Nat) (i : Instr), decodeTableWord nbits w = some i →
    step (State.reset.withFetchWord nbits w) = exec i { State.reset with reply := .none })

/-! ## The whole machine -/

/-- R200, last sentences: in phase LIVE every well-formed instruction other than INIT, MBC1.RAMB and MBC5.RAMB
completes, and those two complete on a bank in range. The two faults are the spec's decisions D7 and D22. -/
def Obligations.LiveOperationsComplete : Prop :=
  ∀ (i : Instr) (s : State), s.phase = .live → i.wf s.config = true → operationOf i ≠ .init →
    (∀ a v, i = .mbc1Ramb a v ∨ i = .mbc5Ramb a v → v.toNat < s.config.maxRamBanks) →
    ∃ t, exec i s = .next t

/-- The invariant holds right after reset, and in the state before the first INIT. The two states are the model's
choice (assumptions 1 and 11); their zeros are the spec's decision D19 (assumption 15). -/
def Obligations.ResetMeetsTheInvariant : Prop := State.reset.Inv ∧ State.powerOn.Inv

/-- R32, R33: every step from a state that meets the invariant gives a state that meets it. The laws of R33 are
derived by the spec; the fields beyond them state what R22, R25, R27, R28, R63, R104, R105 and R129 say, the canonical
form, and the model's choice of assumption 11. They rest on the spec's decisions D8 (which banks an image has), D19 and D25
(what INIT leaves), D11 and D13 (the RTC view), D29 (no cartridge). -/
def Obligations.EveryStepKeepsTheInvariant : Prop :=
  ∀ s t : State, s.Inv → step s = .next t → t.Inv

/-- R60: whatever a step does to a live machine with a cartridge, as long as it stays live the lower half of the ROM region
shows ROM bank 0 of the same image before and after, and the upper half shows the bank `romBankIndex`. -/
def Obligations.NoStepChangesRomContent : Prop :=
  ∀ (s t : State) (img : Image), s.phase = .live → s.cartridgeHandle = some img → step s = .next t → t.phase = .live →
    t.cartridgeHandle = some img ∧
    (∀ a : Addr, a.toNat < 0x4000 → s.readByte a = imageByte img a.toNat ∧ t.readByte a = imageByte img a.toNat) ∧
    (∀ a : Addr, 0x4000 ≤ a.toNat → a.toNat < 0x8000 →
      s.readByte a = imageByte img (s.romBankIndex.toNat * 0x4000 + (a.toNat - 0x4000)) ∧
      t.readByte a = imageByte img (t.romBankIndex.toNat * 0x4000 + (a.toNat - 0x4000)))

/-- R73, R31: no instruction but a high-RAM write touches the compiled-block table or calls the collaborator. That INIT and
FREE keep the record of earlier calls is the model's choice (assumption 7). -/
def Obligations.OnlyHighRamWritesReleaseBlocks : Prop :=
  ∀ (i : Instr) (s t : State), (∀ a v, i ≠ .hramW a v) → exec i s = .next t →
    t.blockTable = s.blockTable ∧ t.releaseCalls = s.releaseCalls

/-- R25, R26, R28, R29: which commands move each bank register while the instance lives. -/
def Obligations.BankRegistersMoveOnlyByTheirCommands : Prop :=
  ∀ (i : Instr) (s t : State), exec i s = .next t → operationOf i ≠ .init → operationOf i ≠ .free →
    (t.romBankIndex ≠ s.romBankIndex → selectsRomBank i) ∧
    (t.ramBankIndex ≠ s.ramBankIndex → selectsRamBank i) ∧
    (t.bankModeFlag ≠ s.bankModeFlag → ∃ a v, i = .mbc1Mode a v) ∧
    (t.bankModeData ≠ s.bankModeData → ∃ a v, i = .mbc1Stash a v) ∧
    (t.rtcWindowActive = true → s.rtcWindowActive = false → ∃ a v, i = .mbc3Rtcsel a v) ∧
    (t.rtcWindowActive = false → s.rtcWindowActive = true → selectsRamBank i) ∧
    (t.ramBankStore ≠ s.ramBankStore → selectsRamBank i ∨ ∃ a v, i = .mbc3Rtcsel a v)

/-- R22, R30, R6: the kind, the cartridge, the configuration and the phase stay as they are for the life of the instance;
no instruction sets the input lines or takes from the inbox (assumptions 2, 5). -/
def Obligations.KindAndCartridgeAreFixedForLife : Prop :=
  ∀ (i : Instr) (s t : State), exec i s = .next t →
    t.config = s.config ∧ t.inputs = s.inputs ∧ t.inbox = s.inbox ∧
    (operationOf i ≠ .init → operationOf i ≠ .free →
      t.controllerKind = s.controllerKind ∧ t.cartridgeHandle = s.cartridgeHandle ∧ t.phase = s.phase)

/-- R109, R200, R201: the sink is only appended to, by at most one event, and only by UNSUP.W and the ROM-bank
selects; a WRITE hands no result to the requester. The sink is the spec's decision D25; that
FREE keeps it is assumption 26, the reply assumption 6. -/
def Obligations.SinkGrowsOnlyByReportedCommands : Prop :=
  ∀ (i : Instr) (s t : State), exec i s = .next t → operationOf i ≠ .init →
    (∃ events, t.sink = s.sink ++ events ∧ events.length ≤ 1 ∧
      (events ≠ [] → (∃ a v, i = .unsupW a v) ∨ selectsRomBank i)) ∧
    (operationOf i = .write → t.reply = s.reply)

/-- R140: a WRITE below 0x8000 stores nothing: whatever command it selects, every byte outside the two switched windows
reads as before, and no block is released; so does the ROM window unless the ROM bank moved, and the RAM window unless a
RAM bank or the RTC view was selected. -/
def Obligations.RomRegionWriteStoresNothing : Prop :=
  ∀ (s t : State) (a : Addr) (v : Byte), a.toNat < 0x8000 → exec (decodeWrite s.decodeCtx a v) s = .next t →
    (∀ b : Addr, ¬inRamWindow b → ¬(0x4000 ≤ b.toNat ∧ b.toNat < 0x8000) → t.readByte b = s.readByte b) ∧
    (t.romBankIndex = s.romBankIndex → ∀ b : Addr, b.toNat < 0x8000 → t.readByte b = s.readByte b) ∧
    ((t.addressSpace = s.addressSpace ∧ t.ramBankStore = s.ramBankStore) ∨
      (0x4000 ≤ a.toNat ∧ a.toNat < 0x6000)) ∧
    t.blockTable = s.blockTable ∧ t.releaseCalls = s.releaseCalls

/-- R237, R64: without a cartridge no WRITE changes anything below 0x8000, and no bank ever changes. That the family is
then NONE, so that no WRITE reaches the lower half, is the spec's decision D29. -/
def Obligations.WithoutCartridgeNoWriteReachesTheLowerHalf : Prop :=
  ∀ (s t : State) (a : Addr) (v : Byte), s.Inv → s.cartridgeHandle = none →
    exec (decodeWrite s.decodeCtx a v) s = .next t →
    (∀ b : Addr, b.toNat < 0x8000 → t.readByte b = s.readByte b) ∧
    t.romBankIndex = s.romBankIndex ∧ t.ramBankIndex = s.ramBankIndex
end

