-- ==== Sys2Proof/Laws/Memory.lean ====
section
/-! SUPPORT. The laws of a byte space: what a read gives after a write and after a range is replaced, and that every
operation keeps the canonical form. -/

namespace Sys2Proof

/-! ## Reading -/

@[simp] theorem Memory.read_nil (a : Nat) : Memory.read [] a = 0 := rfl

theorem Memory.read_cons (c : Host.Cell) (m : Memory) (a : Nat) :
    Memory.read (c :: m) a = if c.1 = a then c.2 else Memory.read m a := rfl

/-- An address that no pair lists reads as 0x00. -/
theorem Memory.read_eq_zero_of_unlisted {m : Memory} {a : Nat} (h : ∀ c ∈ m, c.1 ≠ a) : Memory.read m a = 0 := by
  induction m with
  | nil => rfl
  | cons c m ih =>
    rw [Memory.read_cons, if_neg (h c (by simp)), ih fun d hd => h d (by simp [hd])]

theorem Memory.read_eq_zero_of_within {m : Memory} {lo hi a : Nat} (h : Memory.within m lo hi)
    (ha : a < lo ∨ hi ≤ a) : Memory.read m a = 0 :=
  Memory.read_eq_zero_of_unlisted fun c hc => by have := h c hc; omega

/-- In canonical form a listed pair is what its address reads as. -/
theorem Memory.read_eq_of_mem {m : Memory} (hm : Memory.wf m) {c : Host.Cell} (hc : c ∈ m) :
    Memory.read m c.1 = c.2 := by
  induction m with
  | nil => simp at hc
  | cons d m ih =>
    rw [Memory.read_cons]
    rcases List.mem_cons.1 hc with rfl | hc'
    · simp
    · have hlt := (List.pairwise_cons.1 hm.1).1 c hc'
      rw [if_neg (by omega), ih ⟨(List.pairwise_cons.1 hm.1).2, fun e he => hm.2 e (by simp [he])⟩ hc']

/-- Equal contents are equal data: two canonical listings that read alike everywhere are the same list. -/
theorem Memory.eq_of_read_eq {m n : Memory} (hm : Memory.wf m) (hn : Memory.wf n)
    (h : ∀ a, Memory.read m a = Memory.read n a) : m = n := by
  have mem_iff : ∀ c, c ∈ m ↔ c ∈ n := by
    have key : ∀ {p q : Memory}, Memory.wf p → Memory.wf q → (∀ a, Memory.read p a = Memory.read q a) →
        ∀ c ∈ p, c ∈ q := by
      intro p q hp hq hr c hc
      have hread := Memory.read_eq_of_mem hp hc
      rw [hr] at hread
      by_contra hcq
      refine hp.2 c hc ?_
      rw [← hread]
      refine Memory.read_eq_zero_of_unlisted fun d hd hdc => hcq ?_
      have := Memory.read_eq_of_mem hq hd
      rw [hdc, hread] at this
      rwa [show c = d from Prod.ext hdc.symm this]
    exact fun c => ⟨key hm hn h c, key hn hm (fun a => (h a).symm) c⟩
  have nodup : ∀ {p : Memory}, Memory.wf p → p.Nodup := fun hp =>
    hp.1.imp fun hlt heq => by rw [heq] at hlt; exact lt_irrefl _ hlt
  refine ((List.perm_ext_iff_of_nodup (nodup hm) (nodup hn)).2 mem_iff).eq_of_pairwise
    (fun a b _ _ hab hba => absurd hab (by omega)) hm.1 hn.1

theorem Memory.read_append (m n : Memory) (a : Nat) :
    Memory.read (m ++ n) a = if ∃ c ∈ m, c.1 = a then Memory.read m a else Memory.read n a := by
  induction m with
  | nil => simp
  | cons c m ih =>
    rw [List.cons_append, Memory.read_cons, Memory.read_cons, ih]
    by_cases hc : c.1 = a <;> simp [hc]

theorem Memory.read_filter (m : Memory) (p : Nat → Bool) (a : Nat) :
    Memory.read (m.filter fun c => p c.1) a = if p a then Memory.read m a else 0 := by
  induction m with
  | nil => simp
  | cons c m ih =>
    rw [List.filter_cons, Memory.read_cons]
    by_cases hc : c.1 = a
    · subst hc
      by_cases hp : p c.1 <;> simp [hp, Memory.read_cons, ih]
    · by_cases hp : p c.1 <;> simp [hp, hc, Memory.read_cons, ih]

/-! ## Writing one byte -/

/-- The written address reads as the written byte. -/
@[simp] theorem Memory.read_write_same {m : Memory} (hm : Memory.wf m) (a : Nat) (v : Byte) :
    Memory.read (Memory.write m a v) a = v := by
  induction m with
  | nil => simp only [Memory.write]; split <;> simp_all [Memory.read_cons]
  | cons c m ih =>
    obtain ⟨b, x⟩ := c
    have hp := List.pairwise_cons.1 hm.1
    have hunlisted : ¬ b < a → Memory.read m a = 0 := fun hba =>
      Memory.read_eq_zero_of_unlisted fun d hd => by have := hp.1 d hd; simp at this; omega
    simp only [Memory.write]
    split
    · rw [Memory.read_cons, if_neg (by simp; omega), ih ⟨hp.2, fun d hd => hm.2 d (by simp [hd])⟩]
    · split
      · split <;> simp_all [Memory.read_cons]
      · split <;> simp_all [Memory.read_cons]

/-- Every other address reads as before. -/
@[simp] theorem Memory.read_write_other (m : Memory) {a b : Nat} (v : Byte) (h : b ≠ a) :
    Memory.read (Memory.write m a v) b = Memory.read m b := by
  induction m with
  | nil => simp only [Memory.write]; split <;> simp [Memory.read_cons, h.symm]
  | cons c m ih =>
    obtain ⟨d, x⟩ := c
    simp only [Memory.write]
    split
    · rw [Memory.read_cons, Memory.read_cons, ih]
    · split <;> split <;> simp_all [Memory.read_cons, h.symm]

theorem Memory.mem_write {m : Memory} {a : Nat} {v : Byte} {c : Host.Cell} (hc : c ∈ Memory.write m a v) :
    c ∈ m ∨ (c = (a, v) ∧ v ≠ 0) := by
  induction m with
  | nil => simp only [Memory.write] at hc; split at hc <;> simp_all
  | cons d m ih =>
    obtain ⟨b, x⟩ := d
    simp only [Memory.write] at hc
    split at hc
    · rcases List.mem_cons.1 hc with rfl | hc
      · simp
      · rcases ih hc with h | h
        · exact Or.inl (List.mem_cons_of_mem _ h)
        · exact Or.inr h
    · split at hc <;> split at hc <;> simp_all <;> tauto

/-- A write keeps the canonical form. -/
theorem Memory.wf_write {m : Memory} (hm : Memory.wf m) (a : Nat) (v : Byte) : Memory.wf (Memory.write m a v) := by
  refine ⟨?_, fun c hc => ?_⟩
  · induction m with
    | nil => simp only [Memory.write]; split <;> simp
    | cons d m ih =>
      obtain ⟨b, x⟩ := d
      have hp := List.pairwise_cons.1 hm.1
      have hrest : Memory.wf m := ⟨hp.2, fun e he => hm.2 e (by simp [he])⟩
      simp only [Memory.write]
      split
      · refine List.pairwise_cons.2 ⟨fun e he => ?_, ih hrest⟩
        rcases Memory.mem_write he with h | ⟨rfl, _⟩
        · exact hp.1 e h
        · assumption
      · split <;> split
        · exact hp.2
        · subst_vars; exact List.pairwise_cons.2 ⟨fun e he => hp.1 e he, hp.2⟩
        · exact hm.1
        · refine List.pairwise_cons.2 ⟨fun e he => ?_, hm.1⟩
          have hba : a < b := by omega
          rcases List.mem_cons.1 he with rfl | he
          · exact hba
          · exact lt_trans hba (hp.1 e he)
  · rcases Memory.mem_write hc with h | ⟨rfl, h⟩
    · exact hm.2 c h
    · exact h

theorem Memory.within_write {m : Memory} {lo hi a : Nat} (hm : Memory.within m lo hi) (ha : lo ≤ a ∧ a < hi)
    (v : Byte) : Memory.within (Memory.write m a v) lo hi := fun c hc => by
  rcases Memory.mem_write hc with h | ⟨rfl, _⟩
  · exact hm c h
  · exact ha

/-! ## Replacing a range -/

/-- Inside the range the block answers, outside it the bytes are as before. -/
theorem Memory.read_splice {m block : Memory} {lo n : Nat} (hb : Memory.within block lo (lo + n)) (a : Nat) :
    Memory.read (Memory.splice m lo n block) a
      = if lo ≤ a ∧ a < lo + n then Memory.read block a else Memory.read m a := by
  have below := Memory.read_filter m (fun b => decide (b < lo)) a
  have above := Memory.read_filter m (fun b => decide (lo + n ≤ b)) a
  have notBelow : lo ≤ a → ¬∃ c ∈ m.filter fun c => decide (c.1 < lo), c.1 = a := fun h ⟨c, hc, hca⟩ => by
    have := (List.mem_filter.1 hc).2
    simp at this; omega
  have notInBlock : ¬(lo ≤ a ∧ a < lo + n) → ¬∃ c ∈ block, c.1 = a := fun h ⟨c, hc, hca⟩ => by
    have := hb c hc; omega
  unfold Memory.splice
  rw [List.append_assoc, Memory.read_append, Memory.read_append, above, below]
  by_cases hin : lo ≤ a ∧ a < lo + n
  · rw [if_neg (notBelow hin.1), if_pos hin]
    by_cases hex : ∃ c ∈ block, c.1 = a
    · rw [if_pos hex]
    · rw [if_neg hex, if_neg (by simpa using hin.2)]
      exact (Memory.read_eq_zero_of_unlisted fun c hc hca => hex ⟨c, hc, hca⟩).symm
  · rw [if_neg hin, if_neg (notInBlock hin)]
    by_cases hlo : a < lo
    · by_cases hex : ∃ c ∈ m.filter fun c => decide (c.1 < lo), c.1 = a
      · rw [if_pos hex]; simp [hlo]
      · have hzero : Memory.read m a = 0 := Memory.read_eq_zero_of_unlisted fun c hc hca =>
          hex ⟨c, List.mem_filter.2 ⟨hc, by simpa [hca] using hlo⟩, hca⟩
        rw [if_neg hex, hzero]; simp
    · rw [if_neg (notBelow (by omega)), if_pos (by simp; omega)]

theorem Memory.wf_splice {m block : Memory} {lo n : Nat} (hm : Memory.wf m) (hbw : Memory.wf block)
    (hb : Memory.within block lo (lo + n)) : Memory.wf (Memory.splice m lo n block) := by
  refine ⟨?_, fun c hc => ?_⟩
  · unfold Memory.splice
    refine List.pairwise_append.2 ⟨List.pairwise_append.2 ⟨hm.1.filter _, hbw.1, fun c hc d hd => ?_⟩, hm.1.filter _,
      fun c hc d hd => ?_⟩
    · have h1 := (List.mem_filter.1 hc).2
      have h2 := hb d hd
      simp at h1; omega
    · have h2 := (List.mem_filter.1 hd).2
      simp at h2
      rcases List.mem_append.1 hc with h | h
      · have h1 := (List.mem_filter.1 h).2
        simp at h1; omega
      · have h1 := hb c h
        omega
  · unfold Memory.splice at hc
    simp only [List.mem_append, List.mem_filter] at hc
    rcases hc with (h | h) | h
    · exact hm.2 c h.1
    · exact hbw.2 c h
    · exact hm.2 c h.1

theorem Memory.within_splice {m block : Memory} {lo n lo' hi' : Nat} (hm : Memory.within m lo' hi')
    (hb : Memory.within block lo (lo + n)) (hlo : lo' ≤ lo) (hhi : lo + n ≤ hi') :
    Memory.within (Memory.splice m lo n block) lo' hi' := fun c hc => by
  unfold Memory.splice at hc
  simp only [List.mem_append, List.mem_filter] at hc
  rcases hc with (h | h) | h
  · exact hm c h.1
  · have := hb c h; omega
  · exact hm c h.1

/-! ## The two kinds of block -/

theorem Memory.within_nil (lo hi : Nat) : Memory.within [] lo hi := by simp

theorem Memory.wf_nil : Memory.wf [] := ⟨List.Pairwise.nil, by simp⟩

theorem Memory.within_block (lo n : Nat) (f : Nat → Byte) : Memory.within (Memory.block lo n f) lo (lo + n) := by
  intro c hc
  obtain ⟨k, hk, hkc⟩ := List.mem_filterMap.1 hc
  have hkn := List.mem_range.1 hk
  split at hkc
  · simp at hkc
  · obtain rfl := Option.some.inj hkc
    simp; omega

theorem Memory.wf_block (lo n : Nat) (f : Nat → Byte) : Memory.wf (Memory.block lo n f) := by
  refine ⟨?_, fun c hc => ?_⟩
  · unfold Memory.block
    refine List.Pairwise.filterMap _ (fun a b hab c hc d hd => ?_) List.pairwise_lt_range
    split at hc
    · simp at hc
    · split at hd
      · simp at hd
      · obtain rfl := Option.some.inj hc
        obtain rfl := Option.some.inj hd
        simp; omega
  · obtain ⟨k, hk, hkc⟩ := List.mem_filterMap.1 hc
    split at hkc
    · simp at hkc
    · obtain rfl := Option.some.inj hkc
      assumption

theorem Memory.read_block {lo n : Nat} {f : Nat → Byte} {k : Nat} (hk : k < n) :
    Memory.read (Memory.block lo n f) (lo + k) = f k := by
  by_cases hf : f k = 0
  · rw [hf]
    refine Memory.read_eq_zero_of_unlisted fun c hc hck => ?_
    obtain ⟨j, hj, hjc⟩ := List.mem_filterMap.1 hc
    split at hjc
    · simp at hjc
    · obtain rfl := Option.some.inj hjc
      have : j = k := by simp at hck; omega
      subst this; contradiction
  · exact Memory.read_eq_of_mem (Memory.wf_block lo n f)
      (c := (lo + k, f k)) (List.mem_filterMap.2 ⟨k, List.mem_range.2 hk, if_neg hf⟩)

theorem Memory.within_shifted (m : Memory) (src n dst : Nat) :
    Memory.within (Memory.shifted m src n dst) dst (dst + n) := by
  intro c hc
  obtain ⟨d, hd, rfl⟩ := List.mem_map.1 hc
  have := (List.mem_filter.1 hd).2
  simp at this
  constructor
  · simp
  · simp; omega

theorem Memory.wf_shifted {m : Memory} (hm : Memory.wf m) (src n dst : Nat) :
    Memory.wf (Memory.shifted m src n dst) := by
  refine ⟨?_, fun c hc => ?_⟩
  · unfold Memory.shifted
    rw [List.pairwise_map]
    refine List.Pairwise.imp_of_mem (fun {c d} hc hd hlt => ?_) (hm.1.filter _)
    have h1 := (List.mem_filter.1 hc).2
    have h2 := (List.mem_filter.1 hd).2
    simp at h1 h2
    simp; omega
  · obtain ⟨d, hd, rfl⟩ := List.mem_map.1 hc
    exact hm.2 d (List.mem_filter.1 hd).1

theorem Memory.read_shifted {src n dst : Nat} {k : Nat} (hk : k < n) (m : Memory) :
    Memory.read (Memory.shifted m src n dst) (dst + k) = Memory.read m (src + k) := by
  induction m with
  | nil => rfl
  | cons c m ih =>
    unfold Memory.shifted at ih ⊢
    rw [List.filter_cons, Memory.read_cons]
    by_cases hp : src ≤ c.1 ∧ c.1 < src + n
    · rw [if_pos (by simpa using hp), List.map_cons, Memory.read_cons, ih]
      by_cases hc : c.1 = src + k
      · rw [if_pos hc, if_pos (by simp; omega)]
      · rw [if_neg hc, if_neg (by simp; omega)]
    · rw [if_neg (by simpa using hp), ih, if_neg (by omega)]

end Sys2Proof
end

