-- ==== Sys2Proof/Laws/State.lean ====
section
/-! SUPPORT. What each named update of the state leaves in each field: one lemma per field per update, true by
definition, so that no later proof unfolds an update. -/

namespace Sys2Proof.Machine

variable (s : State)

/-! ## `State.memWrite` -/

@[simp] theorem State.memWrite_config (a : Addr) (v : Byte) : (s.memWrite a v).config = s.config := rfl
@[simp] theorem State.memWrite_phase (a : Addr) (v : Byte) : (s.memWrite a v).phase = s.phase := rfl
@[simp] theorem State.memWrite_addressSpace (a : Addr) (v : Byte) :
    (s.memWrite a v).addressSpace = Memory.write s.addressSpace a.toNat v := rfl
@[simp] theorem State.memWrite_controllerKind (a : Addr) (v : Byte) :
    (s.memWrite a v).controllerKind = s.controllerKind := rfl
@[simp] theorem State.memWrite_romBankIndex (a : Addr) (v : Byte) :
    (s.memWrite a v).romBankIndex = s.romBankIndex := rfl
@[simp] theorem State.memWrite_ramBankIndex (a : Addr) (v : Byte) :
    (s.memWrite a v).ramBankIndex = s.ramBankIndex := rfl
@[simp] theorem State.memWrite_ramBankStore (a : Addr) (v : Byte) :
    (s.memWrite a v).ramBankStore = s.ramBankStore := rfl
@[simp] theorem State.memWrite_bankModeFlag (a : Addr) (v : Byte) :
    (s.memWrite a v).bankModeFlag = s.bankModeFlag := rfl
@[simp] theorem State.memWrite_bankModeData (a : Addr) (v : Byte) :
    (s.memWrite a v).bankModeData = s.bankModeData := rfl
@[simp] theorem State.memWrite_rtcWindowActive (a : Addr) (v : Byte) :
    (s.memWrite a v).rtcWindowActive = s.rtcWindowActive := rfl
@[simp] theorem State.memWrite_cartridgeHandle (a : Addr) (v : Byte) :
    (s.memWrite a v).cartridgeHandle = s.cartridgeHandle := rfl
@[simp] theorem State.memWrite_blockTable (a : Addr) (v : Byte) : (s.memWrite a v).blockTable = s.blockTable := rfl
@[simp] theorem State.memWrite_inputs (a : Addr) (v : Byte) : (s.memWrite a v).inputs = s.inputs := rfl
@[simp] theorem State.memWrite_inbox (a : Addr) (v : Byte) : (s.memWrite a v).inbox = s.inbox := rfl
@[simp] theorem State.memWrite_reply (a : Addr) (v : Byte) : (s.memWrite a v).reply = s.reply := rfl
@[simp] theorem State.memWrite_sink (a : Addr) (v : Byte) : (s.memWrite a v).sink = s.sink := rfl
@[simp] theorem State.memWrite_releaseCalls (a : Addr) (v : Byte) :
    (s.memWrite a v).releaseCalls = s.releaseCalls := rfl

/-! ## `State.copy` -/

@[simp] theorem State.copy_config (dst : Nat) (src : Addr) (n : Nat) : (s.copy dst src n).config = s.config := rfl
@[simp] theorem State.copy_phase (dst : Nat) (src : Addr) (n : Nat) : (s.copy dst src n).phase = s.phase := rfl
@[simp] theorem State.copy_addressSpace (dst : Nat) (src : Addr) (n : Nat) :
    (s.copy dst src n).addressSpace = Memory.splice s.addressSpace dst n
        (Memory.block dst n (fun k => s.readByte (src + BitVec.ofNat 16 k))) := rfl
@[simp] theorem State.copy_controllerKind (dst : Nat) (src : Addr) (n : Nat) :
    (s.copy dst src n).controllerKind = s.controllerKind := rfl
@[simp] theorem State.copy_romBankIndex (dst : Nat) (src : Addr) (n : Nat) :
    (s.copy dst src n).romBankIndex = s.romBankIndex := rfl
@[simp] theorem State.copy_ramBankIndex (dst : Nat) (src : Addr) (n : Nat) :
    (s.copy dst src n).ramBankIndex = s.ramBankIndex := rfl
@[simp] theorem State.copy_ramBankStore (dst : Nat) (src : Addr) (n : Nat) :
    (s.copy dst src n).ramBankStore = s.ramBankStore := rfl
@[simp] theorem State.copy_bankModeFlag (dst : Nat) (src : Addr) (n : Nat) :
    (s.copy dst src n).bankModeFlag = s.bankModeFlag := rfl
@[simp] theorem State.copy_bankModeData (dst : Nat) (src : Addr) (n : Nat) :
    (s.copy dst src n).bankModeData = s.bankModeData := rfl
@[simp] theorem State.copy_rtcWindowActive (dst : Nat) (src : Addr) (n : Nat) :
    (s.copy dst src n).rtcWindowActive = s.rtcWindowActive := rfl
@[simp] theorem State.copy_cartridgeHandle (dst : Nat) (src : Addr) (n : Nat) :
    (s.copy dst src n).cartridgeHandle = s.cartridgeHandle := rfl
@[simp] theorem State.copy_blockTable (dst : Nat) (src : Addr) (n : Nat) :
    (s.copy dst src n).blockTable = s.blockTable := rfl
@[simp] theorem State.copy_inputs (dst : Nat) (src : Addr) (n : Nat) : (s.copy dst src n).inputs = s.inputs := rfl
@[simp] theorem State.copy_inbox (dst : Nat) (src : Addr) (n : Nat) : (s.copy dst src n).inbox = s.inbox := rfl
@[simp] theorem State.copy_reply (dst : Nat) (src : Addr) (n : Nat) : (s.copy dst src n).reply = s.reply := rfl
@[simp] theorem State.copy_sink (dst : Nat) (src : Addr) (n : Nat) : (s.copy dst src n).sink = s.sink := rfl
@[simp] theorem State.copy_releaseCalls (dst : Nat) (src : Addr) (n : Nat) :
    (s.copy dst src n).releaseCalls = s.releaseCalls := rfl

/-! ## `State.flushWindow` -/

@[simp] theorem State.flushWindow_config : s.flushWindow.config = s.config := rfl
@[simp] theorem State.flushWindow_phase : s.flushWindow.phase = s.phase := rfl
@[simp] theorem State.flushWindow_addressSpace : s.flushWindow.addressSpace = s.addressSpace := rfl
@[simp] theorem State.flushWindow_controllerKind : s.flushWindow.controllerKind = s.controllerKind := rfl
@[simp] theorem State.flushWindow_romBankIndex : s.flushWindow.romBankIndex = s.romBankIndex := rfl
@[simp] theorem State.flushWindow_ramBankIndex : s.flushWindow.ramBankIndex = s.ramBankIndex := rfl
@[simp] theorem State.flushWindow_ramBankStore :
    s.flushWindow.ramBankStore = Memory.splice s.ramBankStore (s.ramBankIndex * ramBankSize) ramBankSize
        (Memory.shifted s.addressSpace ramWindowBase ramBankSize (s.ramBankIndex * ramBankSize)) := rfl
@[simp] theorem State.flushWindow_bankModeFlag : s.flushWindow.bankModeFlag = s.bankModeFlag := rfl
@[simp] theorem State.flushWindow_bankModeData : s.flushWindow.bankModeData = s.bankModeData := rfl
@[simp] theorem State.flushWindow_rtcWindowActive : s.flushWindow.rtcWindowActive = s.rtcWindowActive := rfl
@[simp] theorem State.flushWindow_cartridgeHandle : s.flushWindow.cartridgeHandle = s.cartridgeHandle := rfl
@[simp] theorem State.flushWindow_blockTable : s.flushWindow.blockTable = s.blockTable := rfl
@[simp] theorem State.flushWindow_inputs : s.flushWindow.inputs = s.inputs := rfl
@[simp] theorem State.flushWindow_inbox : s.flushWindow.inbox = s.inbox := rfl
@[simp] theorem State.flushWindow_reply : s.flushWindow.reply = s.reply := rfl
@[simp] theorem State.flushWindow_sink : s.flushWindow.sink = s.sink := rfl
@[simp] theorem State.flushWindow_releaseCalls : s.flushWindow.releaseCalls = s.releaseCalls := rfl

/-! ## `State.loadWindow` -/

@[simp] theorem State.loadWindow_config (b : Nat) : (s.loadWindow b).config = s.config := rfl
@[simp] theorem State.loadWindow_phase (b : Nat) : (s.loadWindow b).phase = s.phase := rfl
@[simp] theorem State.loadWindow_addressSpace (b : Nat) :
    (s.loadWindow b).addressSpace = Memory.splice s.addressSpace ramWindowBase ramBankSize
        (Memory.shifted s.ramBankStore (b * ramBankSize) ramBankSize ramWindowBase) := rfl
@[simp] theorem State.loadWindow_controllerKind (b : Nat) : (s.loadWindow b).controllerKind = s.controllerKind := rfl
@[simp] theorem State.loadWindow_romBankIndex (b : Nat) : (s.loadWindow b).romBankIndex = s.romBankIndex := rfl
@[simp] theorem State.loadWindow_ramBankIndex (b : Nat) : (s.loadWindow b).ramBankIndex = s.ramBankIndex := rfl
@[simp] theorem State.loadWindow_ramBankStore (b : Nat) : (s.loadWindow b).ramBankStore = s.ramBankStore := rfl
@[simp] theorem State.loadWindow_bankModeFlag (b : Nat) : (s.loadWindow b).bankModeFlag = s.bankModeFlag := rfl
@[simp] theorem State.loadWindow_bankModeData (b : Nat) : (s.loadWindow b).bankModeData = s.bankModeData := rfl
@[simp] theorem State.loadWindow_rtcWindowActive (b : Nat) :
    (s.loadWindow b).rtcWindowActive = s.rtcWindowActive := rfl
@[simp] theorem State.loadWindow_cartridgeHandle (b : Nat) :
    (s.loadWindow b).cartridgeHandle = s.cartridgeHandle := rfl
@[simp] theorem State.loadWindow_blockTable (b : Nat) : (s.loadWindow b).blockTable = s.blockTable := rfl
@[simp] theorem State.loadWindow_inputs (b : Nat) : (s.loadWindow b).inputs = s.inputs := rfl
@[simp] theorem State.loadWindow_inbox (b : Nat) : (s.loadWindow b).inbox = s.inbox := rfl
@[simp] theorem State.loadWindow_reply (b : Nat) : (s.loadWindow b).reply = s.reply := rfl
@[simp] theorem State.loadWindow_sink (b : Nat) : (s.loadWindow b).sink = s.sink := rfl
@[simp] theorem State.loadWindow_releaseCalls (b : Nat) : (s.loadWindow b).releaseCalls = s.releaseCalls := rfl

/-! ## `State.zeroWindow` -/

@[simp] theorem State.zeroWindow_config : s.zeroWindow.config = s.config := rfl
@[simp] theorem State.zeroWindow_phase : s.zeroWindow.phase = s.phase := rfl
@[simp] theorem State.zeroWindow_addressSpace :
    s.zeroWindow.addressSpace = Memory.splice s.addressSpace ramWindowBase ramBankSize [] := rfl
@[simp] theorem State.zeroWindow_controllerKind : s.zeroWindow.controllerKind = s.controllerKind := rfl
@[simp] theorem State.zeroWindow_romBankIndex : s.zeroWindow.romBankIndex = s.romBankIndex := rfl
@[simp] theorem State.zeroWindow_ramBankIndex : s.zeroWindow.ramBankIndex = s.ramBankIndex := rfl
@[simp] theorem State.zeroWindow_ramBankStore : s.zeroWindow.ramBankStore = s.ramBankStore := rfl
@[simp] theorem State.zeroWindow_bankModeFlag : s.zeroWindow.bankModeFlag = s.bankModeFlag := rfl
@[simp] theorem State.zeroWindow_bankModeData : s.zeroWindow.bankModeData = s.bankModeData := rfl
@[simp] theorem State.zeroWindow_rtcWindowActive : s.zeroWindow.rtcWindowActive = s.rtcWindowActive := rfl
@[simp] theorem State.zeroWindow_cartridgeHandle : s.zeroWindow.cartridgeHandle = s.cartridgeHandle := rfl
@[simp] theorem State.zeroWindow_blockTable : s.zeroWindow.blockTable = s.blockTable := rfl
@[simp] theorem State.zeroWindow_inputs : s.zeroWindow.inputs = s.inputs := rfl
@[simp] theorem State.zeroWindow_inbox : s.zeroWindow.inbox = s.inbox := rfl
@[simp] theorem State.zeroWindow_reply : s.zeroWindow.reply = s.reply := rfl
@[simp] theorem State.zeroWindow_sink : s.zeroWindow.sink = s.sink := rfl
@[simp] theorem State.zeroWindow_releaseCalls : s.zeroWindow.releaseCalls = s.releaseCalls := rfl

/-! ## `State.emit` -/

@[simp] theorem State.emit_config (d : Diag) : (s.emit d).config = s.config := rfl
@[simp] theorem State.emit_phase (d : Diag) : (s.emit d).phase = s.phase := rfl
@[simp] theorem State.emit_addressSpace (d : Diag) : (s.emit d).addressSpace = s.addressSpace := rfl
@[simp] theorem State.emit_controllerKind (d : Diag) : (s.emit d).controllerKind = s.controllerKind := rfl
@[simp] theorem State.emit_romBankIndex (d : Diag) : (s.emit d).romBankIndex = s.romBankIndex := rfl
@[simp] theorem State.emit_ramBankIndex (d : Diag) : (s.emit d).ramBankIndex = s.ramBankIndex := rfl
@[simp] theorem State.emit_ramBankStore (d : Diag) : (s.emit d).ramBankStore = s.ramBankStore := rfl
@[simp] theorem State.emit_bankModeFlag (d : Diag) : (s.emit d).bankModeFlag = s.bankModeFlag := rfl
@[simp] theorem State.emit_bankModeData (d : Diag) : (s.emit d).bankModeData = s.bankModeData := rfl
@[simp] theorem State.emit_rtcWindowActive (d : Diag) : (s.emit d).rtcWindowActive = s.rtcWindowActive := rfl
@[simp] theorem State.emit_cartridgeHandle (d : Diag) : (s.emit d).cartridgeHandle = s.cartridgeHandle := rfl
@[simp] theorem State.emit_blockTable (d : Diag) : (s.emit d).blockTable = s.blockTable := rfl
@[simp] theorem State.emit_inputs (d : Diag) : (s.emit d).inputs = s.inputs := rfl
@[simp] theorem State.emit_inbox (d : Diag) : (s.emit d).inbox = s.inbox := rfl
@[simp] theorem State.emit_reply (d : Diag) : (s.emit d).reply = s.reply := rfl
@[simp] theorem State.emit_sink (d : Diag) : (s.emit d).sink = s.sink ++ [d] := rfl
@[simp] theorem State.emit_releaseCalls (d : Diag) : (s.emit d).releaseCalls = s.releaseCalls := rfl

/-! ## `State.answer` -/

@[simp] theorem State.answer_config (r : Reply) : (s.answer r).config = s.config := rfl
@[simp] theorem State.answer_phase (r : Reply) : (s.answer r).phase = s.phase := rfl
@[simp] theorem State.answer_addressSpace (r : Reply) : (s.answer r).addressSpace = s.addressSpace := rfl
@[simp] theorem State.answer_controllerKind (r : Reply) : (s.answer r).controllerKind = s.controllerKind := rfl
@[simp] theorem State.answer_romBankIndex (r : Reply) : (s.answer r).romBankIndex = s.romBankIndex := rfl
@[simp] theorem State.answer_ramBankIndex (r : Reply) : (s.answer r).ramBankIndex = s.ramBankIndex := rfl
@[simp] theorem State.answer_ramBankStore (r : Reply) : (s.answer r).ramBankStore = s.ramBankStore := rfl
@[simp] theorem State.answer_bankModeFlag (r : Reply) : (s.answer r).bankModeFlag = s.bankModeFlag := rfl
@[simp] theorem State.answer_bankModeData (r : Reply) : (s.answer r).bankModeData = s.bankModeData := rfl
@[simp] theorem State.answer_rtcWindowActive (r : Reply) : (s.answer r).rtcWindowActive = s.rtcWindowActive := rfl
@[simp] theorem State.answer_cartridgeHandle (r : Reply) : (s.answer r).cartridgeHandle = s.cartridgeHandle := rfl
@[simp] theorem State.answer_blockTable (r : Reply) : (s.answer r).blockTable = s.blockTable := rfl
@[simp] theorem State.answer_inputs (r : Reply) : (s.answer r).inputs = s.inputs := rfl
@[simp] theorem State.answer_inbox (r : Reply) : (s.answer r).inbox = s.inbox := rfl
@[simp] theorem State.answer_reply (r : Reply) : (s.answer r).reply = r := rfl
@[simp] theorem State.answer_sink (r : Reply) : (s.answer r).sink = s.sink := rfl
@[simp] theorem State.answer_releaseCalls (r : Reply) : (s.answer r).releaseCalls = s.releaseCalls := rfl

/-! ## `State.raise` -/

@[simp] theorem State.raise_config (e : OpError) : (s.raise e).config = s.config := rfl
@[simp] theorem State.raise_phase (e : OpError) : (s.raise e).phase = s.phase := rfl
@[simp] theorem State.raise_addressSpace (e : OpError) : (s.raise e).addressSpace = s.addressSpace := rfl
@[simp] theorem State.raise_controllerKind (e : OpError) : (s.raise e).controllerKind = s.controllerKind := rfl
@[simp] theorem State.raise_romBankIndex (e : OpError) : (s.raise e).romBankIndex = s.romBankIndex := rfl
@[simp] theorem State.raise_ramBankIndex (e : OpError) : (s.raise e).ramBankIndex = s.ramBankIndex := rfl
@[simp] theorem State.raise_ramBankStore (e : OpError) : (s.raise e).ramBankStore = s.ramBankStore := rfl
@[simp] theorem State.raise_bankModeFlag (e : OpError) : (s.raise e).bankModeFlag = s.bankModeFlag := rfl
@[simp] theorem State.raise_bankModeData (e : OpError) : (s.raise e).bankModeData = s.bankModeData := rfl
@[simp] theorem State.raise_rtcWindowActive (e : OpError) : (s.raise e).rtcWindowActive = s.rtcWindowActive := rfl
@[simp] theorem State.raise_cartridgeHandle (e : OpError) : (s.raise e).cartridgeHandle = s.cartridgeHandle := rfl
@[simp] theorem State.raise_blockTable (e : OpError) : (s.raise e).blockTable = s.blockTable := rfl
@[simp] theorem State.raise_inputs (e : OpError) : (s.raise e).inputs = s.inputs := rfl
@[simp] theorem State.raise_inbox (e : OpError) : (s.raise e).inbox = s.inbox := rfl
@[simp] theorem State.raise_reply (e : OpError) : (s.raise e).reply = .error e := rfl
@[simp] theorem State.raise_sink (e : OpError) : (s.raise e).sink = s.sink := rfl
@[simp] theorem State.raise_releaseCalls (e : OpError) : (s.raise e).releaseCalls = s.releaseCalls := rfl

/-! ## `State.accept` -/

@[simp] theorem State.accept_config (rest : List Event) : (s.accept rest).config = s.config := rfl
@[simp] theorem State.accept_phase (rest : List Event) : (s.accept rest).phase = s.phase := rfl
@[simp] theorem State.accept_addressSpace (rest : List Event) : (s.accept rest).addressSpace = s.addressSpace := rfl
@[simp] theorem State.accept_controllerKind (rest : List Event) :
    (s.accept rest).controllerKind = s.controllerKind := rfl
@[simp] theorem State.accept_romBankIndex (rest : List Event) : (s.accept rest).romBankIndex = s.romBankIndex := rfl
@[simp] theorem State.accept_ramBankIndex (rest : List Event) : (s.accept rest).ramBankIndex = s.ramBankIndex := rfl
@[simp] theorem State.accept_ramBankStore (rest : List Event) : (s.accept rest).ramBankStore = s.ramBankStore := rfl
@[simp] theorem State.accept_bankModeFlag (rest : List Event) : (s.accept rest).bankModeFlag = s.bankModeFlag := rfl
@[simp] theorem State.accept_bankModeData (rest : List Event) : (s.accept rest).bankModeData = s.bankModeData := rfl
@[simp] theorem State.accept_rtcWindowActive (rest : List Event) :
    (s.accept rest).rtcWindowActive = s.rtcWindowActive := rfl
@[simp] theorem State.accept_cartridgeHandle (rest : List Event) :
    (s.accept rest).cartridgeHandle = s.cartridgeHandle := rfl
@[simp] theorem State.accept_blockTable (rest : List Event) : (s.accept rest).blockTable = s.blockTable := rfl
@[simp] theorem State.accept_inputs (rest : List Event) : (s.accept rest).inputs = s.inputs := rfl
@[simp] theorem State.accept_inbox (rest : List Event) : (s.accept rest).inbox = rest := rfl
@[simp] theorem State.accept_reply (rest : List Event) : (s.accept rest).reply = .none := rfl
@[simp] theorem State.accept_sink (rest : List Event) : (s.accept rest).sink = s.sink := rfl
@[simp] theorem State.accept_releaseCalls (rest : List Event) : (s.accept rest).releaseCalls = s.releaseCalls := rfl

/-! ## `State.withoutItems` -/

@[simp] theorem State.withoutItems_config : s.withoutItems.config = s.config := rfl
@[simp] theorem State.withoutItems_phase : s.withoutItems.phase = s.phase := rfl
@[simp] theorem State.withoutItems_addressSpace : s.withoutItems.addressSpace = [] := rfl
@[simp] theorem State.withoutItems_controllerKind : s.withoutItems.controllerKind = .none := rfl
@[simp] theorem State.withoutItems_romBankIndex : s.withoutItems.romBankIndex = 1 := rfl
@[simp] theorem State.withoutItems_ramBankIndex : s.withoutItems.ramBankIndex = 0 := rfl
@[simp] theorem State.withoutItems_ramBankStore : s.withoutItems.ramBankStore = [] := rfl
@[simp] theorem State.withoutItems_bankModeFlag : s.withoutItems.bankModeFlag = .rom := rfl
@[simp] theorem State.withoutItems_bankModeData : s.withoutItems.bankModeData = 0 := rfl
@[simp] theorem State.withoutItems_rtcWindowActive : s.withoutItems.rtcWindowActive = false := rfl
@[simp] theorem State.withoutItems_cartridgeHandle : s.withoutItems.cartridgeHandle = none := rfl
@[simp] theorem State.withoutItems_blockTable : s.withoutItems.blockTable = s.blockTable := rfl
@[simp] theorem State.withoutItems_inputs : s.withoutItems.inputs = s.inputs := rfl
@[simp] theorem State.withoutItems_inbox : s.withoutItems.inbox = s.inbox := rfl
@[simp] theorem State.withoutItems_reply : s.withoutItems.reply = s.reply := rfl
@[simp] theorem State.withoutItems_sink : s.withoutItems.sink = s.sink := rfl
@[simp] theorem State.withoutItems_releaseCalls : s.withoutItems.releaseCalls = s.releaseCalls := rfl

end Sys2Proof.Machine
end

