-- ==== Sys2Proof/Laws/Ops.lean ====
section
/-! SUPPORT. One lemma per shared operation of the machine that says what it can do, for provers to cite instead of
unfolding it: reads of the address space after each update, the lifecycle check, the bank switches, the operand
formulas. -/

namespace Sys2Proof.Machine

/-! ## Configuration -/

/-- What R6 asks of a special address. -/
theorem specialAddrOk_iff (a : Addr) : specialAddrOk a = true ↔
    0x8000 ≤ a.toNat ∧ a.toNat < 0xFF80 ∧ ¬inRamWindow a ∧ ¬inOam a := by
  simp only [specialAddrOk, inRamWindow, inOam, hramBase, ramWindowBase, ramBankSize, oamBase, dmaLength,
    Bool.and_eq_true, Bool.not_eq_true', Bool.and_eq_false_iff, decide_eq_true_eq, decide_eq_false_iff_not]
  omega

/-- Every special address of a configuration is where R6 allows it. -/
theorem Config.special_placed (c : Config) {a : Addr} (ha : a ∈ c.specialAddrs) :
    0x8000 ≤ a.toNat ∧ a.toNat < 0xFF80 ∧ ¬inRamWindow a ∧ ¬inOam a := by
  have h := c.valid
  simp only [Params.ok, Bool.and_eq_true, List.all_eq_true] at h
  exact (specialAddrOk_iff a).1 (h.1.2 a ha)

theorem Config.timer_placed (c : Config) : 0x8000 ≤ c.addrTimerReset.toNat ∧ c.addrTimerReset.toNat < 0xFF80 ∧
    ¬inRamWindow c.addrTimerReset ∧ ¬inOam c.addrTimerReset := Config.special_placed c (by simp [Params.specialAddrs])

theorem Config.input_placed (c : Config) : 0x8000 ≤ c.addrInputPoll.toNat ∧ c.addrInputPoll.toNat < 0xFF80 ∧
    ¬inRamWindow c.addrInputPoll ∧ ¬inOam c.addrInputPoll := Config.special_placed c (by simp [Params.specialAddrs])

theorem Config.serial_placed (c : Config) : 0x8000 ≤ c.addrSerialData.toNat ∧ c.addrSerialData.toNat < 0xFF80 ∧
    ¬inRamWindow c.addrSerialData ∧ ¬inOam c.addrSerialData := Config.special_placed c (by simp [Params.specialAddrs])

theorem Config.dma_placed (c : Config) : 0x8000 ≤ c.addrDmaTrigger.toNat ∧ c.addrDmaTrigger.toNat < 0xFF80 ∧
    ¬inRamWindow c.addrDmaTrigger ∧ ¬inOam c.addrDmaTrigger := Config.special_placed c (by simp [Params.specialAddrs])

/-- The four special addresses are pairwise different (R6). -/
theorem Config.specials_distinct (c : Config) :
    c.addrInputPoll ≠ c.addrSerialData ∧ c.addrInputPoll ≠ c.addrTimerReset ∧ c.addrInputPoll ≠ c.addrDmaTrigger ∧
    c.addrSerialData ≠ c.addrTimerReset ∧ c.addrSerialData ≠ c.addrDmaTrigger ∧
    c.addrTimerReset ≠ c.addrDmaTrigger := by
  have h := c.valid
  simp only [Params.ok, Bool.and_eq_true, decide_eq_true_eq, Params.specialAddrs] at h
  have hn := h.2
  simp at hn
  tauto

/-- There are at least five RAM banks (R6). -/
theorem Config.five_le_maxRamBanks (c : Config) : 5 ≤ c.maxRamBanks := by
  have h := c.valid
  simp only [Params.ok, Bool.and_eq_true, decide_eq_true_eq] at h
  exact h.1.1

/-! ## Reading a byte -/

theorem State.readByte_cartridge {s : State} {img : Image} (h : s.cartridgeHandle = some img) (a : Addr) :
    s.readByte a = if a.toNat < 0x8000 then romByte img s.romBankIndex a else Memory.read s.addressSpace a.toNat := by
  simp [State.readByte, h]

theorem State.readByte_anonymous {s : State} (h : s.cartridgeHandle = none) (a : Addr) :
    s.readByte a = Memory.read s.addressSpace a.toNat := by
  simp [State.readByte, h]

/-- From 0x8000 on a read is a read of the stored bytes. -/
theorem State.readByte_upper (s : State) {a : Addr} (ha : 0x8000 ≤ a.toNat) :
    s.readByte a = Memory.read s.addressSpace a.toNat := by
  unfold State.readByte
  split
  · rw [if_neg (by omega)]
  · rfl

/-- A read looks at the cartridge, the selected ROM bank and the stored byte at the address, and nowhere else. -/
theorem State.readByte_congr {s t : State} (hc : t.cartridgeHandle = s.cartridgeHandle)
    (hr : t.romBankIndex = s.romBankIndex) {a : Addr}
    (hm : Memory.read t.addressSpace a.toNat = Memory.read s.addressSpace a.toNat) : t.readByte a = s.readByte a := by
  simp only [State.readByte, hc, hr, hm]

theorem State.readByte_memWrite_same {s : State} (hs : Memory.wf s.addressSpace) {a : Addr} (ha : 0x8000 ≤ a.toNat)
    (v : Byte) : (s.memWrite a v).readByte a = v := by
  rw [State.readByte_upper _ ha, State.memWrite_addressSpace, Memory.read_write_same hs]

theorem State.readByte_memWrite_other (s : State) {a b : Addr} (v : Byte) (h : b ≠ a) :
    (s.memWrite a v).readByte b = s.readByte b :=
  State.readByte_congr (s := s) (t := s.memWrite a v) rfl rfl
    (Memory.read_write_other _ v fun he => h (BitVec.eq_of_toNat_eq he))

/-- Byte `k` of the destination of a copy is byte `k` of the source as it read before. -/
theorem State.readByte_copy_inside (s : State) {dst n : Nat} {src a : Addr} {k : Nat} (hk : k < n)
    (ha : a.toNat = dst + k) (hup : 0x8000 ≤ dst) :
    (s.copy dst src n).readByte a = s.readByte (src + BitVec.ofNat 16 k) := by
  rw [State.readByte_upper _ (by omega), State.copy_addressSpace, Memory.read_splice (Memory.within_block _ _ _),
    if_pos (by omega), ha, Memory.read_block hk]

theorem State.readByte_copy_outside (s : State) {dst n : Nat} {src a : Addr}
    (ha : ¬(dst ≤ a.toNat ∧ a.toNat < dst + n)) : (s.copy dst src n).readByte a = s.readByte a :=
  State.readByte_congr (s := s) (t := s.copy dst src n) rfl rfl (by
    rw [State.copy_addressSpace, Memory.read_splice (Memory.within_block _ _ _), if_neg ha])

/-! ## The bank switches -/

theorem State.read_flushWindow (s : State) (b o : Nat) (ho : o < ramBankSize) :
    Memory.read s.flushWindow.ramBankStore (b * ramBankSize + o) =
      if b = s.ramBankIndex then Memory.read s.addressSpace (ramWindowBase + o)
      else Memory.read s.ramBankStore (b * ramBankSize + o) := by
  rw [State.flushWindow_ramBankStore, Memory.read_splice (Memory.within_shifted _ _ _ _)]
  by_cases hb : b = s.ramBankIndex
  · subst hb
    rw [if_pos (by omega), if_pos rfl, Memory.read_shifted ho]
  · rw [if_neg hb, if_neg]
    rcases Nat.lt_or_gt_of_ne hb with h | h
    · have := Nat.mul_le_mul_right ramBankSize (Nat.succ_le_of_lt h)
      rw [Nat.succ_mul] at this
      omega
    · have := Nat.mul_le_mul_right ramBankSize (Nat.succ_le_of_lt h)
      rw [Nat.succ_mul] at this
      omega

theorem State.read_loadWindow_inside (s : State) (b o : Nat) (ho : o < ramBankSize) :
    Memory.read (s.loadWindow b).addressSpace (ramWindowBase + o) = Memory.read s.ramBankStore (b * ramBankSize + o) := by
  rw [State.loadWindow_addressSpace, Memory.read_splice (Memory.within_shifted _ _ _ _), if_pos (by omega),
    Memory.read_shifted ho]

theorem State.read_loadWindow_outside (s : State) (b : Nat) {x : Nat}
    (hx : ¬(ramWindowBase ≤ x ∧ x < ramWindowBase + ramBankSize)) :
    Memory.read (s.loadWindow b).addressSpace x = Memory.read s.addressSpace x := by
  rw [State.loadWindow_addressSpace, Memory.read_splice (Memory.within_shifted _ _ _ _), if_neg hx]

theorem State.read_zeroWindow (s : State) (x : Nat) : Memory.read s.zeroWindow.addressSpace x =
    if ramWindowBase ≤ x ∧ x < ramWindowBase + ramBankSize then 0 else Memory.read s.addressSpace x := by
  rw [State.zeroWindow_addressSpace, Memory.read_splice (Memory.within_nil _ _), Memory.read_nil]

/-- Saving the outgoing window changes STORE alone. -/
theorem State.saveOutgoing_eq (s : State) :
    s.saveOutgoing = { s with ramBankStore := s.saveOutgoing.ramBankStore } := by
  unfold State.saveOutgoing
  split <;> rfl

/-- What STORE holds once the outgoing window is saved: the window in its bank's slot, unless it was the RTC view. -/
theorem State.read_saveOutgoing (s : State) (b o : Nat) (ho : o < ramBankSize) :
    Memory.read s.saveOutgoing.ramBankStore (b * ramBankSize + o) =
      if b = s.ramBankIndex ∧ s.rtcWindowActive = false then Memory.read s.addressSpace (ramWindowBase + o)
      else Memory.read s.ramBankStore (b * ramBankSize + o) := by
  unfold State.saveOutgoing State.windowHoldsBank
  cases hr : s.rtcWindowActive
  · simpa using State.read_flushWindow s b o ho
  · simp

/-- After saving, every slot holds the live content of its bank (R62). -/
theorem State.read_saveOutgoing_eq_ramByte (s : State) (b o : Nat) (ho : o < ramBankSize) :
    Memory.read s.saveOutgoing.ramBankStore (b * ramBankSize + o) = s.ramByte b o := by
  rw [State.read_saveOutgoing s b o ho, State.ramByte]

/-- The swap changes the window, STORE, the bank number and the view flag alone. -/
theorem swapRamBank_eq (req : Nat) (s : State) : swapRamBank req s =
    { s with
      addressSpace := (s.saveOutgoing.loadWindow req).addressSpace
      ramBankStore := s.saveOutgoing.ramBankStore
      rtcWindowActive := false
      ramBankIndex := req } := by
  unfold swapRamBank
  rw [State.saveOutgoing_eq s]
  rfl

/-- The RTC select changes the window, STORE and the view flag alone. -/
theorem accessRtc_eq (s : State) : accessRtc s =
    { s with
      addressSpace := s.zeroWindow.addressSpace
      ramBankStore := s.saveOutgoing.ramBankStore
      rtcWindowActive := true } := by
  unfold accessRtc
  rw [State.saveOutgoing_eq s]
  rfl

/-- Everything a RAM-bank change can answer: the range fault, the no-op, or the swap (R123, R124). -/
theorem changeRamBank_cases (req : Byte) (s : State) :
    (s.config.maxRamBanks ≤ req.toNat ∧ changeRamBank req s = .fault (.ramBankRange req)) ∨
    (req.toNat < s.config.maxRamBanks ∧ req.toNat = s.ramBankIndex ∧ s.rtcWindowActive = false ∧
      changeRamBank req s = .next s) ∨
    (req.toNat < s.config.maxRamBanks ∧ ¬(req.toNat = s.ramBankIndex ∧ s.rtcWindowActive = false) ∧
      changeRamBank req s = .next (swapRamBank req.toNat s)) := by
  unfold changeRamBank
  by_cases h : s.config.maxRamBanks ≤ req.toNat
  · left; simp [h]
  · by_cases h2 : req.toNat = s.ramBankIndex ∧ s.rtcWindowActive = false
    · right; left
      exact ⟨by omega, h2.1, h2.2, by rw [if_neg h, if_pos h2]⟩
    · right; right
      exact ⟨by omega, h2, by rw [if_neg h, if_neg h2]⟩

/-- Everything a ROM-bank change can do: nothing, the selection, or one event (R120, R121). -/
theorem changeRomBank_cases (req : BankNo) (s : State) :
    (req = s.romBankIndex ∧ changeRomBank req s = s) ∨
    (req ≠ s.romBankIndex ∧ req.toNat < s.romBanks ∧ changeRomBank req s = { s with romBankIndex := req }) ∨
    (req ≠ s.romBankIndex ∧ s.romBanks ≤ req.toNat ∧
      changeRomBank req s = { s with sink := s.sink ++ [.remapError req] }) := by
  unfold changeRomBank
  by_cases h : req = s.romBankIndex
  · left; simp [h]
  · by_cases h2 : req.toNat < s.romBanks
    · right; left; exact ⟨h, h2, by rw [if_neg h, if_pos h2]⟩
    · right; right; exact ⟨h, by omega, by rw [if_neg h, if_neg h2]; rfl⟩

/-- A ROM-bank change touches the bank number and the sink alone (R122). -/
theorem changeRomBank_frame (b : BankNo) (s : State) : changeRomBank b s =
    { s with romBankIndex := (changeRomBank b s).romBankIndex, sink := (changeRomBank b s).sink } := by
  rcases changeRomBank_cases b s with ⟨_, e⟩ | ⟨_, _, e⟩ | ⟨_, _, e⟩ <;> rw [e]

/-- A bank that exists is selected. -/
theorem changeRomBank_romBankIndex {b : BankNo} {s : State} (h : b.toNat < s.romBanks) :
    (changeRomBank b s).romBankIndex = b := by
  rcases changeRomBank_cases b s with ⟨h1, e⟩ | ⟨_, _, e⟩ | ⟨_, h2, e⟩
  · rw [e, h1]
  · rw [e]
  · omega

@[simp] theorem changeRomBank_romBanks (b : BankNo) (s : State) : (changeRomBank b s).romBanks = s.romBanks := by
  rw [changeRomBank_frame]; rfl

/-- An address of the window lies above the ROM region. -/
theorem inRamWindow_upper {a : Addr} (h : inRamWindow a) : 0x8000 ≤ a.toNat := by
  have := h.1
  simp only [ramWindowBase] at this
  omega

/-- After the swap the window shows the live bytes of the requested bank. -/
theorem swapRamBank_readByte_inside (req : Nat) (s : State) {b : Addr} (hb : inRamWindow b) :
    (swapRamBank req s).readByte b = s.ramByte req (b.toNat - ramWindowBase) := by
  have ho : b.toNat - ramWindowBase < ramBankSize := by
    obtain ⟨h1, h2⟩ := hb
    simp only [ramWindowBase, ramBankSize] at *
    omega
  rw [State.readByte_upper _ (inRamWindow_upper hb), swapRamBank_eq, ← State.read_saveOutgoing_eq_ramByte s req _ ho,
    ← State.read_loadWindow_inside _ _ _ ho, Nat.add_sub_cancel' hb.1]

/-- The swap changes no byte outside the window. -/
theorem swapRamBank_readByte_outside (req : Nat) (s : State) {b : Addr} (hb : ¬inRamWindow b) :
    (swapRamBank req s).readByte b = s.readByte b := by
  rw [swapRamBank_eq]
  refine State.readByte_congr ?_ ?_ ?_ <;> try rfl
  show Memory.read (s.saveOutgoing.loadWindow req).addressSpace _ = _
  rw [State.read_loadWindow_outside _ _ hb, State.saveOutgoing_eq]

/-- After the RTC select the window reads zero. -/
theorem accessRtc_readByte_inside (s : State) {b : Addr} (hb : inRamWindow b) : (accessRtc s).readByte b = 0 := by
  rw [State.readByte_upper _ (inRamWindow_upper hb), accessRtc_eq]
  show Memory.read s.zeroWindow.addressSpace _ = _
  rw [State.read_zeroWindow]
  exact if_pos hb

/-- The RTC select changes no byte outside the window. -/
theorem accessRtc_readByte_outside (s : State) {b : Addr} (hb : ¬inRamWindow b) :
    (accessRtc s).readByte b = s.readByte b := by
  rw [accessRtc_eq]
  refine State.readByte_congr ?_ ?_ ?_ <;> try rfl
  show Memory.read s.zeroWindow.addressSpace _ = _
  rw [State.read_zeroWindow]
  exact if_neg hb

/-! ## The lifecycle check -/

theorem State.whenLive_live {s : State} (h : s.phase = .live) (op : OpName) (k : State → Result) :
    s.whenLive op k = k s := by
  simp [State.whenLive, h]

theorem State.whenLive_not_live {s : State} (h : s.phase ≠ .live) (op : OpName) (k : State → Result) :
    s.whenLive op k = .fault (.lifecycle op s.phase) := by
  simp [State.whenLive, h]

/-- A checked operation answers a next state only in phase LIVE, and then by its own effect. -/
theorem State.whenLive_eq_next {s t : State} {op : OpName} {k : State → Result} :
    s.whenLive op k = .next t ↔ s.phase = .live ∧ k s = .next t := by
  by_cases h : s.phase = .live <;> simp [State.whenLive, h]

/-! ## The scan -/

/-- Everything one slot of the scan can do: release and zero a hit, or nothing (R191). -/
theorem scanSlot_cases (a : Addr) (s : State) (i : Slot) :
    (s.blockTable[i].hit a = true ∧ scanSlot a s i =
      { s with
        blockTable := s.blockTable.set i { s.blockTable[i] with executionCount := 0 }
        releaseCalls := s.releaseCalls ++ [i] }) ∨
    (s.blockTable[i].hit a = false ∧ scanSlot a s i = s) := by
  unfold scanSlot
  by_cases h : s.blockTable[i].hit a = true
  · left; exact ⟨h, by simp only [h, if_true]⟩
  · right; exact ⟨by simpa using h, by simp only [h]; rfl⟩

/-- A released entry is hit no more (R193 (f)). -/
@[simp] theorem BlockEntry.hit_zeroed (a : Addr) (e : BlockEntry) :
    ({ e with executionCount := 0 } : BlockEntry).hit a = false := by
  simp [BlockEntry.hit]

/-- A scan over distinct slots, as a whole: every hit is zeroed, and the hits are the calls, in the order of the slots. -/
theorem foldl_scanSlot (a : Addr) (slots : List Slot) (hn : slots.Nodup) (s : State) :
    (∀ i : Slot, (slots.foldl (scanSlot a) s).blockTable[i] =
      if i ∈ slots ∧ s.blockTable[i].hit a = true then { s.blockTable[i] with executionCount := 0 }
      else s.blockTable[i]) ∧
    (slots.foldl (scanSlot a) s).releaseCalls = s.releaseCalls ++ slots.filter (fun i => s.blockTable[i].hit a) := by
  induction slots generalizing s with
  | nil => simp
  | cons j js ih =>
    obtain ⟨hj, hjs⟩ := List.nodup_cons.1 hn
    rw [List.foldl_cons]
    obtain ⟨h1, h2⟩ := ih hjs (scanSlot a s j)
    have hb : ∀ i : Slot, (scanSlot a s j).blockTable[i] =
        if i = j ∧ s.blockTable[j].hit a = true then { s.blockTable[j] with executionCount := 0 }
        else s.blockTable[i] := by
      intro i
      rcases scanSlot_cases a s j with ⟨hh, e⟩ | ⟨hh, e⟩ <;> rw [e]
      · by_cases hij : i = j
        · subst hij
          rw [if_pos ⟨rfl, hh⟩]
          simp only [Fin.getElem_fin]
          rw [Vector.getElem_set_self]
        · rw [if_neg (fun h => hij h.1)]
          simp only [Fin.getElem_fin]
          rw [Vector.getElem_set_ne _ _ (fun e => hij (Fin.ext e.symm))]
      · rw [if_neg (fun h => by rw [hh] at h; exact absurd h.2 (by simp))]
    refine ⟨fun i => ?_, ?_⟩
    · rw [h1, hb]
      by_cases hij : i = j
      · subst hij
        by_cases hh : s.blockTable[i].hit a = true <;> simp [hj]
      · simp [hij]
    · rw [h2]
      have : js.filter (fun i => (scanSlot a s j).blockTable[i].hit a) = js.filter (fun i => s.blockTable[i].hit a) := by
        refine List.filter_congr fun i hi => ?_
        rw [hb, if_neg]
        rintro ⟨rfl, _⟩
        exact hj hi
      rw [this, List.filter_cons]
      rcases scanSlot_cases a s j with ⟨hh, e⟩ | ⟨hh, e⟩ <;> rw [e]
      · rw [if_pos hh]; simp
      · rw [if_neg (by rw [hh]; simp)]

/-! ## Operand formulas -/

theorem lowBits_five (v : Byte) : lowBits 5 v = (v &&& 0x1F#8).setWidth 13 := by
  unfold lowBits; revert v; decide

theorem lowBits_seven (v : Byte) : lowBits 7 v = (v &&& 0x7F#8).setWidth 13 := by
  unfold lowBits; revert v; decide

theorem stashOf_toNat (v : Byte) : (stashOf v).toNat = v.toNat * 32 := by
  unfold stashOf; revert v; decide

theorem dmaSource_toNat (v : Byte) : (dmaSource v).toNat = v.toNat * 256 := by
  unfold dmaSource; revert v; decide

/-- Byte `k` of the DMA source: the sum does not wrap (R175 (a)). -/
theorem dmaSource_add_toNat (v : Byte) {k : Nat} (hk : k < 160) :
    (dmaSource v + BitVec.ofNat 16 k).toNat = v.toNat * 256 + k := by
  rw [BitVec.toNat_add, dmaSource_toNat, BitVec.toNat_ofNat]
  have := v.isLt
  omega

end Sys2Proof.Machine
end

