-- ==== Sys2Proof/Laws/Decode.lean ====
section
/-! SUPPORT. The laws of the transaction word and of the decode: the word's two fields, the masks of the opcode map as
address ranges, the literals of the decode as bounds on the address. -/

namespace Sys2Proof

/-! ## The transaction word (R81) -/

@[simp] theorem wordAddr_writeWord (a : Addr) (v : Byte) : wordAddr (writeWord a v) = a := by
  apply BitVec.eq_of_getLsbD_eq
  intro i hi
  simp only [wordAddr, writeWord, BitVec.getLsbD_extractLsb', BitVec.getLsbD_append]
  rw [if_neg (by omega)]
  simp [hi]

@[simp] theorem wordValue_writeWord (a : Addr) (v : Byte) : wordValue (writeWord a v) = v := by
  apply BitVec.eq_of_getLsbD_eq
  intro i hi
  simp only [wordValue, writeWord, BitVec.getLsbD_extractLsb', BitVec.getLsbD_append]
  rw [if_pos (by omega)]
  simp [hi]

@[simp] theorem writeWord_fields (t : BitVec 24) : writeWord (wordAddr t) (wordValue t) = t := by
  apply BitVec.eq_of_getLsbD_eq
  intro i hi
  simp only [wordAddr, wordValue, writeWord, BitVec.getLsbD_extractLsb', BitVec.getLsbD_append]
  split
  · simp; omega
  · rw [show 8 + (i - 8) = i by omega]; simp; omega

theorem wordAddr_toNat (t : BitVec 24) : (wordAddr t).toNat = t.toNat / 2 ^ 8 := by
  rw [wordAddr, BitVec.extractLsb'_toNat, Nat.shiftRight_eq_div_pow, Nat.mod_eq_of_lt]
  have := t.isLt
  omega

/-! ## Masks of the opcode map as address ranges (R84) -/

/-- A match on the top `n` bits of a word is a division. -/
theorem and_top_eq_iff {n m : Nat} (t : BitVec (n + m)) (p : BitVec n) :
    t &&& (BitVec.allOnes n ++ 0#m) = p ++ 0#m ↔ t.toNat / 2 ^ m = p.toNat := by
  have h : t &&& (BitVec.allOnes n ++ 0#m) = t.extractLsb' m n ++ 0#m := by
    apply BitVec.eq_of_getLsbD_eq
    intro i hi
    simp only [BitVec.getLsbD_and, BitVec.getLsbD_append, BitVec.getLsbD_extractLsb', BitVec.getLsbD_allOnes]
    split
    · simp
    · rw [show m + (i - m) = i by omega, Bool.and_comm]
  rw [h]
  have e : (t.extractLsb' m n).toNat = t.toNat / 2 ^ m := by
    rw [BitVec.extractLsb'_toNat, Nat.shiftRight_eq_div_pow, Nat.mod_eq_of_lt]
    refine Nat.div_lt_of_lt_mul ?_
    rw [← pow_add, Nat.add_comm m n]
    exact t.isLt
  rw [← e]
  constructor
  · intro h
    congr 1
    apply BitVec.eq_of_getLsbD_eq
    intro i hi
    have := congrArg (fun x => x.getLsbD (m + i)) h
    simpa [BitVec.getLsbD_append] using this
  · intro h; rw [BitVec.eq_of_toNat_eq h]

theorem match_lowerHalf (t : BitVec 24) :
    t &&& (0x800000 : BitVec 24) = (0x000000 : BitVec 24) ↔ (wordAddr t).toNat < 0x8000 := by
  have := t.isLt
  rw [wordAddr_toNat,
    show t &&& (0x800000 : BitVec 24) = (0x000000 : BitVec 24) ↔ _ from and_top_eq_iff (n := 1) (m := 23) t 0#1,
    show (0#1).toNat = 0 from rfl]
  omega

theorem match_upperHalf (t : BitVec 24) :
    t &&& (0x800000 : BitVec 24) = (0x800000 : BitVec 24) ↔ 0x8000 ≤ (wordAddr t).toNat := by
  have := t.isLt
  rw [wordAddr_toNat,
    show t &&& (0x800000 : BitVec 24) = (0x800000 : BitVec 24) ↔ _ from and_top_eq_iff (n := 1) (m := 23) t 1#1,
    show (1#1).toNat = 1 from rfl]
  omega

/-- The eight ranges of `0x2000` addresses that the top three bits tell apart. -/
theorem match_range (t : BitVec 24) (p : BitVec 3) : t &&& (0xE00000 : BitVec 24) = p ++ 0#21 ↔
    p.toNat * 0x2000 ≤ (wordAddr t).toNat ∧ (wordAddr t).toNat < (p.toNat + 1) * 0x2000 := by
  rw [wordAddr_toNat]
  exact (and_top_eq_iff (n := 3) (m := 21) t p).trans (by omega)

theorem match_range0 (t : BitVec 24) :
    t &&& (0xE00000 : BitVec 24) = (0x000000 : BitVec 24) ↔ (wordAddr t).toNat < 0x2000 := by
  rw [show t &&& (0xE00000 : BitVec 24) = (0x000000 : BitVec 24) ↔ _ from match_range t 0#3]; simp

theorem match_range1 (t : BitVec 24) : t &&& (0xE00000 : BitVec 24) = (0x200000 : BitVec 24) ↔
    0x2000 ≤ (wordAddr t).toNat ∧ (wordAddr t).toNat < 0x4000 := match_range t 1#3

theorem match_range2 (t : BitVec 24) : t &&& (0xE00000 : BitVec 24) = (0x400000 : BitVec 24) ↔
    0x4000 ≤ (wordAddr t).toNat ∧ (wordAddr t).toNat < 0x6000 := match_range t 2#3

theorem match_range3 (t : BitVec 24) : t &&& (0xE00000 : BitVec 24) = (0x600000 : BitVec 24) ↔
    0x6000 ≤ (wordAddr t).toNat ∧ (wordAddr t).toNat < 0x8000 := match_range t 3#3

theorem match_range5 (t : BitVec 24) : t &&& (0xE00000 : BitVec 24) = (0xA00000 : BitVec 24) ↔
    0xA000 ≤ (wordAddr t).toNat ∧ (wordAddr t).toNat < 0xC000 := match_range t 5#3

theorem match_highRam (t : BitVec 24) :
    t &&& (0xFF8000 : BitVec 24) = (0xFF8000 : BitVec 24) ↔ 0xFF80 ≤ (wordAddr t).toNat := by
  have := t.isLt
  rw [wordAddr_toNat,
    show t &&& (0xFF8000 : BitVec 24) = (0xFF8000 : BitVec 24) ↔ _ from and_top_eq_iff (n := 9) (m := 15) t 0x1FF#9,
    show (0x1FF#9).toNat = 0x1FF from rfl]
  omega

theorem match_addr (t : BitVec 24) (a : Addr) : t &&& (0xFFFF00 : BitVec 24) = addrPattern a ↔ wordAddr t = a := by
  rw [show t &&& (0xFFFF00 : BitVec 24) = addrPattern a ↔ _ from and_top_eq_iff (n := 16) (m := 8) t a,
    ← wordAddr_toNat]
  exact ⟨fun h => BitVec.eq_of_toNat_eq h, fun h => by rw [h]⟩

theorem Row.candidate_iff (r : Row) (x : DecodeCtx) (t : BitVec 24) : r.candidate x t = true ↔
    t &&& r.mask = r.pattern ∧ r.families.contains x.family = true ∧ r.condition x (wordValue t) = true := by
  rw [Row.candidate, Bool.and_eq_true, Bool.and_eq_true, decide_eq_true_eq, and_assoc]

/-! ## The decode's comparisons -/

theorem addr_lt_ofNat (a : Addr) {n : Nat} (hn : n < 65536) : a < BitVec.ofNat 16 n ↔ a.toNat < n := by
  rw [BitVec.lt_def, BitVec.toNat_ofNat, Nat.mod_eq_of_lt (by simpa using hn)]

theorem ofNat_le_addr (a : Addr) {n : Nat} (hn : n < 65536) : BitVec.ofNat 16 n ≤ a ↔ n ≤ a.toNat := by
  rw [BitVec.le_def, BitVec.toNat_ofNat, Nat.mod_eq_of_lt (by simpa using hn)]

theorem inRange_iff (lo hi : Nat) (a : Addr) : inRange lo hi a = true ↔ lo ≤ a.toNat ∧ a.toNat < hi := by
  simp [inRange]

theorem Config.notSpecial_iff (c : Config) (a : Addr) : c.notSpecial a = true ↔
    a ≠ c.addrInputPoll ∧ a ≠ c.addrSerialData ∧ a ≠ c.addrTimerReset ∧ a ≠ c.addrDmaTrigger := by
  simp [Config.notSpecial, Params.specialAddrs]

theorem decodeWrite_lower (x : DecodeCtx) {a : Addr} (v : Byte) (ha : a.toNat < 0x8000) :
    decodeWrite x a v = decodeRomRegion x a v := if_pos ((addr_lt_ofNat a (by decide)).2 ha)

theorem decodeWrite_upper (x : DecodeCtx) {a : Addr} (v : Byte) (ha : 0x8000 ≤ a.toNat) :
    decodeWrite x a v = decodeUpper x a v :=
  if_neg fun h => by have := (addr_lt_ofNat a (by decide)).1 h; omega

/-- Above 0x7FFF, once the four special addresses are ruled out. -/
theorem decodeUpper_plain {x : DecodeCtx} {a : Addr} (v : Byte) (h : x.config.notSpecial a = true) : decodeUpper x a v =
    if 0xA000#16 ≤ a ∧ a < 0xC000#16 ∧ x.rtcWindowActive = true then .rtcwinW a v
    else if 0xFF80#16 ≤ a then .hramW a v
    else .storeW a v := by
  obtain ⟨h1, h2, h3, h4⟩ := (Config.notSpecial_iff _ _).1 h
  rw [decodeUpper, if_neg h3, if_neg h1, if_neg h2, if_neg h4]

end Sys2Proof
end

