-- ==== Sys2Proof/Laws/Exec.lean ====
section
/-! SUPPORT. Everything an instruction can do, said once: `exec_effect` turns "exec answers a next state" into one of a few
named effects on it, so that a claim over all instructions is one case analysis over effects. -/

namespace Sys2Proof.Machine

/-- What an instruction other than INIT and FREE did when it took `s` to `t`. -/
inductive Effect (s t : State) : Instr → Prop
  /-- a write command left everything as it was -/
  | unchanged {i : Instr} (write : operationOf i = .write) (same : t = s) : Effect s t i
  /-- READ and DUMP handed the requester a result -/
  | replied {i : Instr} (r : Reply) (query : operationOf i = .read ∨ operationOf i = .dump) (ans : t = s.answer r) :
      Effect s t i
  /-- UNSUP.W reported -/
  | reported (a : Addr) (v : Byte) (ev : t = s.emit (.unsupportedController s.controllerKind a v)) :
      Effect s t (.unsupW a v)
  /-- a ROM-bank select asked for a bank, which MBC1 and MBC3 force nonzero -/
  | romBank {i : Instr} (bank : BankNo) (sel : selectsRomBank i)
      (forced : (∀ a v, i ≠ .mbc5Romb a v) → bank ≠ 0) (chg : t = changeRomBank bank s) : Effect s t i
  /-- MBC1.STASH -/
  | stashed (a : Addr) (v : Byte) (upd : t = { s with bankModeData := stashOf v }) : Effect s t (.mbc1Stash a v)
  /-- MBC1.MODE -/
  | mode (a : Addr) (v : Byte) (upd : t = { s with bankModeFlag := bankModeOf v }) : Effect s t (.mbc1Mode a v)
  /-- a RAM-bank select swapped the window -/
  | ramBank {i : Instr} (v : Byte) (sel : selectsRamBank i) (inRange : v.toNat < s.config.maxRamBanks)
      (swap : t = swapRamBank v.toNat s) : Effect s t i
  /-- MBC3.RTCSEL entered the RTC view -/
  | rtc (a : Addr) (v : Byte) (view : t = accessRtc s) : Effect s t (.mbc3Rtcsel a v)
  /-- STORE.W, TIMER.W, INPUT.W or SERIAL.W stored one byte -/
  | stored {i : Instr} (a : Addr) (w : Byte)
      (which : (∃ v, i = .storeW a v) ∨ (a = s.config.addrTimerReset ∧ w = 0 ∧ ∃ v, i = .timerW v) ∨
        (a = s.config.addrInputPoll ∧ ∃ v, i = .inputW v) ∨ (a = s.config.addrSerialData ∧ ∃ v, i = .serialW v))
      (st : t = s.memWrite a w) : Effect s t i
  /-- DMA.W stored the trigger byte and copied -/
  | copied (v : Byte) (cp : t = (s.memWrite s.config.addrDmaTrigger v).copy oamBase (dmaSource v) dmaLength) :
      Effect s t (.dmaW v)
  /-- HRAM.W stored and scanned -/
  | scanned (a : Addr) (v : Byte) (sc : t = invalidationScan a (s.memWrite a v)) : Effect s t (.hramW a v)

/-- Forcing never answers bank 0 (R82). -/
theorem forceNonzero_ne_zero (b : BankNo) : forceNonzero b ≠ 0 := by
  unfold forceNonzero
  split
  · decide
  · assumption

theorem mbc1Bank_ne_zero (m : BankMode) (d : BankNo) (v : Byte) : mbc1Bank m d v ≠ 0 := by
  cases m <;> exact forceNonzero_ne_zero _

theorem mbc3Bank_ne_zero (v : Byte) : mbc3Bank v ≠ 0 := forceNonzero_ne_zero _

/-- A RAM-bank change that answers a next state was in range, and either kept everything or swapped. -/
theorem changeRamBank_eq_next {v : Byte} {s t : State} (h : changeRamBank v s = .next t) :
    v.toNat < s.config.maxRamBanks ∧ (t = s ∨ t = swapRamBank v.toNat s) := by
  rcases changeRamBank_cases v s with ⟨_, e⟩ | ⟨hv, _, _, e⟩ | ⟨hv, _, e⟩ <;> rw [e] at h
  · exact absurd h (by simp)
  · injection h with h; exact ⟨hv, .inl h.symm⟩
  · injection h with h; exact ⟨hv, .inr h.symm⟩

/-- A RAM-bank select's effect, from its answer. -/
theorem Effect.of_changeRamBank {i : Instr} {v : Byte} {s t : State} (hw : operationOf i = .write)
    (sel : selectsRamBank i) (h : changeRamBank v s = .next t) : Effect s t i := by
  obtain ⟨hv, same | swap⟩ := changeRamBank_eq_next h
  · exact .unchanged hw same
  · exact .ramBank v sel hv swap

/-- The inversion of `exec` for every instruction but INIT and FREE: phase LIVE, and one effect. -/
theorem exec_effect {i : Instr} {s t : State} (hinit : operationOf i ≠ .init) (hfree : operationOf i ≠ .free)
    (he : exec i s = .next t) : s.phase = .live ∧ Effect s t i := by
  cases i with
  | init src => exact absurd rfl hinit
  | free => exact absurd rfl hfree
  | unsupW a v =>
    rw [exec, execUnsupW] at he
    obtain ⟨hl, he⟩ := State.whenLive_eq_next.1 he
    injection he with he; exact ⟨hl, .reported a v he.symm⟩
  | latchNop a v =>
    rw [exec, execLatchNop] at he
    obtain ⟨hl, he⟩ := State.whenLive_eq_next.1 he
    injection he with he; exact ⟨hl, .unchanged rfl he.symm⟩
  | noneIgn a v =>
    rw [exec, execNoneIgn] at he
    obtain ⟨hl, he⟩ := State.whenLive_eq_next.1 he
    injection he with he; exact ⟨hl, .unchanged rfl he.symm⟩
  | mbc1Romb a v =>
    rw [exec, execMbc1Romb] at he
    obtain ⟨hl, he⟩ := State.whenLive_eq_next.1 he
    injection he with he
    exact ⟨hl, .romBank _ ⟨a, v, .inl rfl⟩ (fun _ => mbc1Bank_ne_zero _ _ _) he.symm⟩
  | mbc1Stash a v =>
    rw [exec, execMbc1Stash] at he
    obtain ⟨hl, he⟩ := State.whenLive_eq_next.1 he
    injection he with he; exact ⟨hl, .stashed a v he.symm⟩
  | mbc1Ramb a v =>
    rw [exec, execMbc1Ramb] at he
    obtain ⟨hl, he⟩ := State.whenLive_eq_next.1 he
    exact ⟨hl, .of_changeRamBank rfl ⟨a, v, .inl rfl⟩ he⟩
  | mbc1Mode a v =>
    rw [exec, execMbc1Mode] at he
    obtain ⟨hl, he⟩ := State.whenLive_eq_next.1 he
    injection he with he; exact ⟨hl, .mode a v he.symm⟩
  | mbc3Romb a v =>
    rw [exec, execMbc3Romb] at he
    obtain ⟨hl, he⟩ := State.whenLive_eq_next.1 he
    injection he with he
    exact ⟨hl, .romBank _ ⟨a, v, .inr (.inl rfl)⟩ (fun _ => mbc3Bank_ne_zero _) he.symm⟩
  | mbc3Ramb a v =>
    rw [exec, execMbc3Ramb] at he
    obtain ⟨hl, he⟩ := State.whenLive_eq_next.1 he
    exact ⟨hl, .of_changeRamBank rfl ⟨a, v, .inr (.inl rfl)⟩ he⟩
  | mbc3Rtcsel a v =>
    rw [exec, execMbc3Rtcsel] at he
    obtain ⟨hl, he⟩ := State.whenLive_eq_next.1 he
    injection he with he; exact ⟨hl, .rtc a v he.symm⟩
  | mbc3Latch a v =>
    rw [exec, execMbc3Latch] at he
    obtain ⟨hl, he⟩ := State.whenLive_eq_next.1 he
    injection he with he; exact ⟨hl, .unchanged rfl he.symm⟩
  | mbc5Romb a v =>
    rw [exec, execMbc5Romb] at he
    obtain ⟨hl, he⟩ := State.whenLive_eq_next.1 he
    injection he with he
    exact ⟨hl, .romBank _ ⟨a, v, .inr (.inr rfl)⟩ (fun h => absurd rfl (h a v)) he.symm⟩
  | mbc5Ramb a v =>
    rw [exec, execMbc5Ramb] at he
    obtain ⟨hl, he⟩ := State.whenLive_eq_next.1 he
    exact ⟨hl, .of_changeRamBank rfl ⟨a, v, .inr (.inr rfl)⟩ he⟩
  | mbc5Na a v =>
    rw [exec, execMbc5Na] at he
    obtain ⟨hl, he⟩ := State.whenLive_eq_next.1 he
    injection he with he; exact ⟨hl, .unchanged rfl he.symm⟩
  | timerW v =>
    rw [exec, execTimerW] at he
    obtain ⟨hl, he⟩ := State.whenLive_eq_next.1 he
    injection he with he; exact ⟨hl, .stored _ _ (.inr (.inl ⟨rfl, rfl, v, rfl⟩)) he.symm⟩
  | inputW v =>
    rw [exec, execInputW] at he
    obtain ⟨hl, he⟩ := State.whenLive_eq_next.1 he
    injection he with he; exact ⟨hl, .stored _ _ (.inr (.inr (.inl ⟨rfl, v, rfl⟩))) he.symm⟩
  | serialW v =>
    rw [exec, execSerialW] at he
    obtain ⟨hl, he⟩ := State.whenLive_eq_next.1 he
    injection he with he; exact ⟨hl, .stored _ _ (.inr (.inr (.inr ⟨rfl, v, rfl⟩))) he.symm⟩
  | dmaW v =>
    rw [exec, execDmaW] at he
    obtain ⟨hl, he⟩ := State.whenLive_eq_next.1 he
    injection he with he; exact ⟨hl, .copied v he.symm⟩
  | rtcwinW a v =>
    rw [exec, execRtcwinW] at he
    obtain ⟨hl, he⟩ := State.whenLive_eq_next.1 he
    injection he with he; exact ⟨hl, .unchanged rfl he.symm⟩
  | hramW a v =>
    rw [exec, execHramW] at he
    obtain ⟨hl, he⟩ := State.whenLive_eq_next.1 he
    injection he with he; exact ⟨hl, .scanned a v he.symm⟩
  | storeW a v =>
    rw [exec, execStoreW] at he
    obtain ⟨hl, he⟩ := State.whenLive_eq_next.1 he
    injection he with he; exact ⟨hl, .stored a v (.inl ⟨v, rfl⟩) he.symm⟩
  | read a =>
    rw [exec, execRead] at he
    obtain ⟨hl, he⟩ := State.whenLive_eq_next.1 he
    injection he with he; exact ⟨hl, .replied _ (.inl rfl) he.symm⟩
  | dump =>
    rw [exec, execDump] at he
    obtain ⟨hl, he⟩ := State.whenLive_eq_next.1 he
    injection he with he; exact ⟨hl, .replied _ (.inr rfl) he.symm⟩

/-- The scan changes the table and the release calls alone (R191). -/
theorem invalidationScan_frame (a : Addr) (s : State) : invalidationScan a s =
    { s with
      blockTable := (invalidationScan a s).blockTable
      releaseCalls := (invalidationScan a s).releaseCalls } := by
  have frame : ∀ (slots : List Slot) (s : State), slots.foldl (scanSlot a) s =
      { s with
        blockTable := (slots.foldl (scanSlot a) s).blockTable
        releaseCalls := (slots.foldl (scanSlot a) s).releaseCalls } := by
    intro slots
    induction slots with
    | nil => intro s; rfl
    | cons i slots ih =>
      intro s
      rw [List.foldl_cons]
      rcases scanSlot_cases a s i with ⟨_, h⟩ | ⟨_, h⟩
      · rw [ih, h]
      · rw [h]; exact ih s
  exact frame _ s

/-- Reading is not affected by the scan. -/
@[simp] theorem invalidationScan_readByte (a b : Addr) (s : State) :
    (invalidationScan a s).readByte b = s.readByte b := by
  rw [invalidationScan_frame]; rfl

/-- INIT's answers: an error with nothing else changed, or the started state. -/
theorem exec_init_cases {src : Source} {s t : State} (he : exec (.init src) s = .next t) :
    s.phase = .uninit ∧
      ((∃ e, t = s.raise (.initError e)) ∨
       (∃ img, src = .cartridge img ∧ 0x8000 ≤ img.len ∧
          t = s.started (some img) (kindOfCode s.config (imageByte img 0x147)) []) ∨
       (∃ preload, src = .anonymous preload ∧ t = s.started none .none preload)) := by
  by_cases hp : s.phase = .uninit
  · refine ⟨hp, ?_⟩
    have he' : Host.Outcome.next (s.initialise src) = (Host.Outcome.next t : Result) := by
      rw [← he]; exact (if_pos hp).symm
    injection he' with he'
    cases src with
    | cartridge img =>
      rw [State.initialise, initCartridge] at he'
      split at he'
      · exact .inl ⟨_, he'.symm⟩
      · split at he'
        · exact .inl ⟨_, he'.symm⟩
        · split at he'
          · exact .inl ⟨_, he'.symm⟩
          · exact .inr (.inl ⟨img, rfl, by omega, he'.symm⟩)
    | anonymous preload =>
      rw [State.initialise, initAnonymous] at he'
      split at he'
      · exact .inl ⟨_, he'.symm⟩
      · exact .inr (.inr ⟨preload, rfl, he'.symm⟩)
  · have : exec (.init src) s = .fault (.lifecycle .init s.phase) := if_neg hp
    rw [this] at he; exact absurd he (by simp)

/-- FREE's answer: the nine items are gone, the phase is FREED, and the reply says whether the unmapping failed. -/
theorem exec_free_cases {s t : State} (he : exec .free s = .next t) :
    s.phase = .live ∧ ∃ r, t = { s.withoutItems with phase := .freed, reply := r } := by
  rw [exec, execFree] at he
  obtain ⟨hl, he⟩ := State.whenLive_eq_next.1 he
  refine ⟨hl, ?_⟩
  injection he with he
  split at he
  · exact ⟨_, he.symm⟩
  · exact ⟨_, he.symm⟩

/-- Only INIT is the operation INIT. -/
theorem eq_init_of_operationOf {i : Instr} (h : operationOf i = .init) : ∃ src, i = .init src := by
  cases i <;> simp_all [operationOf]

/-- Only FREE is the operation FREE. -/
theorem eq_free_of_operationOf {i : Instr} (h : operationOf i = .free) : i = .free := by
  cases i <;> simp_all [operationOf]

/-- What every effect keeps: the configuration, the inputs, the inbox, the kind, the cartridge and the phase. -/
theorem Effect.keeps {i : Instr} {s t : State} (h : Effect s t i) :
    t.config = s.config ∧ t.inputs = s.inputs ∧ t.inbox = s.inbox ∧ t.controllerKind = s.controllerKind ∧
      t.cartridgeHandle = s.cartridgeHandle ∧ t.phase = s.phase := by
  cases h with
  | romBank b _ _ h => rw [h, changeRomBank_frame]; exact ⟨rfl, rfl, rfl, rfl, rfl, rfl⟩
  | ramBank v _ _ h => rw [h, swapRamBank_eq]; exact ⟨rfl, rfl, rfl, rfl, rfl, rfl⟩
  | rtc a v h => rw [h, accessRtc_eq]; exact ⟨rfl, rfl, rfl, rfl, rfl, rfl⟩
  | scanned a v h => rw [h, invalidationScan_frame]; exact ⟨rfl, rfl, rfl, rfl, rfl, rfl⟩
  | _ => subst_vars; exact ⟨rfl, rfl, rfl, rfl, rfl, rfl⟩

end Sys2Proof.Machine
end

