-- ==== Sys2Proof/Laws/Invariant.lean ====
section
/-! SUPPORT. The invariant against each kind of update, one lemma each: the canonical form of the two byte spaces is kept
by the store, the copy and the bank switches, and the other clauses with it. -/

namespace Sys2Proof.Machine

/-- The invariant looks at the nine items, the phase and the configuration alone. -/
theorem State.Inv.congr {s t : State} (h : s.Inv) (e1 : t.config = s.config) (e2 : t.phase = s.phase)
    (e3 : t.addressSpace = s.addressSpace) (e4 : t.controllerKind = s.controllerKind)
    (e5 : t.romBankIndex = s.romBankIndex) (e6 : t.ramBankIndex = s.ramBankIndex)
    (e7 : t.ramBankStore = s.ramBankStore) (e8 : t.bankModeFlag = s.bankModeFlag)
    (e9 : t.bankModeData = s.bankModeData) (e10 : t.rtcWindowActive = s.rtcWindowActive)
    (e11 : t.cartridgeHandle = s.cartridgeHandle) : t.Inv := by
  obtain ⟨c, p, a, k, rb, ram, st, m, d, r, ca, bt, inp, inb, rep, si, rel⟩ := t
  simp only at e1 e2 e3 e4 e5 e6 e7 e8 e9 e10 e11
  subst e1 e2 e3 e4 e5 e6 e7 e8 e9 e10 e11
  obtain ⟨h1, h2, h3, h4, h5, h6, h7, h8, h9, h10, h11, h12, h13, h14, h15, h16⟩ := h
  refine ⟨h1, h2, h3, h4, h5, h6, h7, h8, h9, h10, h11, h12, h13, h14, h15, fun hp => ?_⟩
  have := h16 hp
  obtain ⟨c, p, a, k, rb, ram, st, m, d, r, ca, bt, inp, inb, rep, si, rel⟩ := s
  simp [State.withoutItems] at this ⊢
  exact this

theorem State.Inv.timer_stored {s : State} (h : s.Inv) :
    Memory.read s.addressSpace s.config.addrTimerReset.toNat = 0 := by
  rw [← State.readByte_upper s (Config.timer_placed s.config).1]
  exact h.timerReadsZero

theorem State.Inv.rtc_stored {s : State} (h : s.Inv) (hr : s.rtcWindowActive = true) (a : Addr) (ha : inRamWindow a) :
    Memory.read s.addressSpace a.toNat = 0 := by
  rw [← State.readByte_upper s (inRamWindow_upper ha)]
  exact h.rtcReadsZero hr a ha

/-- The state a successful INIT returns (R39). -/
theorem State.started_inv (s : State) (handle : Option Image) (kind : Kind) (lower : Memory)
    (hl : Memory.wf lower) (hl2 : Memory.within lower 0 0x8000)
    (hc : ∀ img, handle = some img → img.wf = true ∧ 0x8000 ≤ img.len ∧
      kind = kindOfCode s.config (imageByte img 0x147) ∧ lower = [])
    (hn : handle = none → kind = .none) : (s.started handle kind lower).Inv := by
  have h5 := Config.five_le_maxRamBanks s.config
  have noView : ∀ {p : Prop}, false = true → p := fun h => absurd h (by simp)
  refine ⟨hl, fun c hc => ?_, Memory.wf_nil, Memory.within_nil _ _, ?_, (by decide : (0 : BankNo) &&& 0x1F = 0),
    fun _ => ⟨rfl, rfl⟩, noView, noView, fun _ => (by decide : (1 : BankNo) ≠ 0), fun _ => ⟨rfl, rfl⟩,
    fun img h => ?_, fun h => ?_, hn, ?_, fun h => absurd rfl h⟩
  · have := hl2 c hc
    simp only [asSize]
    exact ⟨this.1, by omega⟩
  · show 0 < s.config.maxRamBanks
    omega
  · obtain ⟨w1, w2, w3, _⟩ := hc img h
    refine ⟨w1, w2, w3, ?_⟩
    have : (s.started handle kind lower).romBanks = img.len / 0x4000 := by
      rw [State.romBanks, h]
    rw [this]
    show 1 < img.len / 0x4000
    clear this hc h w3 w1
    generalize img.len = n at *
    omega
  · cases handle with
    | none => exact absurd rfl h
    | some img =>
      obtain ⟨_, _, _, e⟩ := hc img rfl
      subst e; exact Memory.within_nil _ _
  · have ht := (Config.timer_placed s.config).1
    rw [State.readByte_upper _ (by exact ht)]
    exact Memory.read_eq_zero_of_within hl2 (.inr ht)

/-- Saving the outgoing window keeps STORE canonical and in range. -/
theorem State.Inv.after_saveOutgoing {s : State} (h : s.Inv) :
    Memory.wf s.saveOutgoing.ramBankStore ∧
      Memory.within s.saveOutgoing.ramBankStore 0 (s.config.maxRamBanks * ramBankSize) := by
  unfold State.saveOutgoing
  split
  · refine ⟨Memory.wf_splice h.storeWf (Memory.wf_shifted h.spaceWf _ _ _) (Memory.within_shifted _ _ _ _),
      Memory.within_splice h.storeWithin (Memory.within_shifted _ _ _ _) (by omega) ?_⟩
    have := Nat.mul_le_mul_right ramBankSize (Nat.succ_le_of_lt h.ramBankInRange)
    rw [Nat.succ_mul] at this; exact this
  · exact ⟨h.storeWf, h.storeWithin⟩

/-- A change of the stored bytes alone. -/
theorem State.Inv.after_space {s : State} {m : Memory} (h : s.Inv) (hl : s.phase = .live) (hw : Memory.wf m)
    (hin : Memory.within m 0 asSize) (hu : s.cartridgeHandle ≠ none → Memory.within m 0x8000 asSize)
    (ht : Memory.read m s.config.addrTimerReset.toNat = 0)
    (hr : s.rtcWindowActive = true → ∀ a : Addr, inRamWindow a → Memory.read m a.toNat = 0) :
    ({ s with addressSpace := m } : State).Inv where
  spaceWf := hw
  spaceWithin := hin
  storeWf := h.storeWf
  storeWithin := h.storeWithin
  ramBankInRange := h.ramBankInRange
  stashLowBitsZero := h.stashLowBitsZero
  auxiliaryOnlyMbc1 := h.auxiliaryOnlyMbc1
  rtcOnlyMbc3 := h.rtcOnlyMbc3
  rtcReadsZero := fun hh a ha => by
    rw [State.readByte_upper _ (inRamWindow_upper ha)]; exact hr hh a ha
  romBankForced := h.romBankForced
  banksKept := h.banksKept
  cartridge := h.cartridge
  romNotStored := hu
  anonymousKind := h.anonymousKind
  timerReadsZero := by
    rw [State.readByte_upper _ (by exact (Config.timer_placed s.config).1)]; exact ht
  itemsOnlyLive := fun hp => absurd hl hp

/-- A raw store from 0x8000 on that is not into the RTC view and leaves the timer byte zero. -/
theorem State.Inv.after_memWrite {s : State} (h : s.Inv) (hl : s.phase = .live) {a : Addr} (ha : 0x8000 ≤ a.toNat)
    {v : Byte} (ht : a = s.config.addrTimerReset → v = 0) (hr : s.rtcWindowActive = true → ¬inRamWindow a) :
    (s.memWrite a v).Inv := by
  have hA := a.isLt
  refine State.Inv.after_space h hl (Memory.wf_write h.spaceWf _ _) (Memory.within_write h.spaceWithin ⟨by omega, hA⟩
      _) (fun hc => Memory.within_write (h.romNotStored hc) ⟨ha, hA⟩ _) ?_ ?_
  · by_cases e : a = s.config.addrTimerReset
    · rw [← e, Memory.read_write_same h.spaceWf, ht e]
    · rw [Memory.read_write_other _ _ (fun h => e (BitVec.eq_of_toNat_eq h.symm))]; exact h.timer_stored
  · intro hh b hb
    rw [Memory.read_write_other]
    · exact h.rtc_stored hh b hb
    · intro e; exact hr hh (by rw [← BitVec.eq_of_toNat_eq e]; exact hb)

/-- The DMA copy. -/
theorem State.Inv.after_copy {s : State} (h : s.Inv) (hl : s.phase = .live) (src : Addr) : (s.copy oamBase src
    dmaLength).Inv := by
  have ht := Config.timer_placed s.config
  refine State.Inv.after_space h hl (Memory.wf_splice h.spaceWf (Memory.wf_block _ _ _) (Memory.within_block _ _ _))
      (Memory.within_splice h.spaceWithin (Memory.within_block _ _ _) (by decide) (by decide)) (fun hc =>
      Memory.within_splice (h.romNotStored hc) (Memory.within_block _ _ _) (by decide) (by decide)) ?_ ?_
  · rw [Memory.read_splice (Memory.within_block _ _ _)]; exact (if_neg ht.2.2.2).trans (h.timer_stored)
  · intro hh b hb
    rw [Memory.read_splice (Memory.within_block _ _ _), if_neg]
    · exact h.rtc_stored hh b hb
    · obtain ⟨h1, h2⟩ := hb
      simp only [ramWindowBase, ramBankSize, oamBase, dmaLength] at *; omega

/-- A RAM-bank swap of a family that switches banks. -/
theorem State.Inv.after_swapRamBank {s : State} (h : s.Inv) (hl : s.phase = .live) (hns : ¬ s.switchesNoBank) {req :
    Nat} (hr : req < s.config.maxRamBanks) : (swapRamBank req s).Inv := by
  have hs := State.Inv.after_saveOutgoing h
  have ht := Config.timer_placed s.config
  have e : (s.saveOutgoing.loadWindow req).addressSpace = Memory.splice s.addressSpace ramWindowBase ramBankSize
      (Memory.shifted s.saveOutgoing.ramBankStore (req * ramBankSize) ramBankSize ramWindowBase) := by
    rw [State.loadWindow_addressSpace, State.saveOutgoing_eq]
  rw [swapRamBank_eq, e]
  have hin := Memory.within_shifted s.saveOutgoing.ramBankStore (req * ramBankSize) ramBankSize ramWindowBase
  exact {
  spaceWf := Memory.wf_splice h.spaceWf (Memory.wf_shifted hs.1 _ _ _) hin
  spaceWithin := Memory.within_splice h.spaceWithin hin (by decide) (by decide)
  storeWf := hs.1
  storeWithin := hs.2
  ramBankInRange := hr
  stashLowBitsZero := h.stashLowBitsZero
  auxiliaryOnlyMbc1 := h.auxiliaryOnlyMbc1
  rtcOnlyMbc3 := fun h => absurd (show false = true from h) (by simp)
  rtcReadsZero := fun h => absurd (show false = true from h) (by simp)
  romBankForced := h.romBankForced
  banksKept := fun hh => absurd hh hns
  cartridge := h.cartridge
  romNotStored := fun hc => Memory.within_splice (h.romNotStored hc) hin (by decide) (by decide)
  anonymousKind := h.anonymousKind
  timerReadsZero := by
    rw [State.readByte_upper _ (by exact ht.1)]
    show Memory.read (Memory.splice _ _ _ _) _ = _
    rw [Memory.read_splice hin]
    exact (if_neg ht.2.2.1).trans (h.timer_stored)
  itemsOnlyLive := fun hp => absurd hl hp }

/-- The RTC select. -/
theorem State.Inv.after_accessRtc {s : State} (h : s.Inv) (hl : s.phase = .live) (hf : s.family = .mbc3) : (accessRtc
    s).Inv := by
  have hs := State.Inv.after_saveOutgoing h
  have ht := Config.timer_placed s.config
  rw [accessRtc_eq]
  have hin := Memory.within_nil ramWindowBase (ramWindowBase + ramBankSize)
  exact {
  spaceWf := Memory.wf_splice h.spaceWf Memory.wf_nil hin
  spaceWithin := Memory.within_splice h.spaceWithin hin (by decide) (by decide)
  storeWf := hs.1
  storeWithin := hs.2
  ramBankInRange := h.ramBankInRange
  stashLowBitsZero := h.stashLowBitsZero
  auxiliaryOnlyMbc1 := h.auxiliaryOnlyMbc1
  rtcOnlyMbc3 := fun _ => hf
  rtcReadsZero := fun _ a ha => by
    rw [State.readByte_upper _ (inRamWindow_upper ha)]
    show Memory.read s.zeroWindow.addressSpace _ = _
    rw [State.read_zeroWindow]; exact if_pos ha
  romBankForced := h.romBankForced
  banksKept := h.banksKept
  cartridge := h.cartridge
  romNotStored := fun hc => Memory.within_splice (h.romNotStored hc) hin (by decide) (by decide)
  anonymousKind := h.anonymousKind
  timerReadsZero := by
    rw [State.readByte_upper _ (by exact ht.1)]
    show Memory.read s.zeroWindow.addressSpace _ = _
    rw [State.read_zeroWindow]
    exact (if_neg ht.2.2.1).trans (h.timer_stored)
  itemsOnlyLive := fun hp => absurd hl hp }

/-- The selection of a ROM bank that exists. -/
theorem State.Inv.after_romBank {s : State} (h : s.Inv) (hl : s.phase = .live) (hns : ¬ s.switchesNoBank) {b :
    BankNo} (hb : b.toNat < s.romBanks)
   (hf : s.family = .mbc1 ∨ s.family = .mbc3 → b ≠ 0) : ({ s with romBankIndex := b } : State).Inv where
  spaceWf := h.spaceWf
  spaceWithin := h.spaceWithin
  storeWf := h.storeWf
  storeWithin := h.storeWithin
  ramBankInRange := h.ramBankInRange
  stashLowBitsZero := h.stashLowBitsZero
  auxiliaryOnlyMbc1 := h.auxiliaryOnlyMbc1
  rtcOnlyMbc3 := h.rtcOnlyMbc3
  rtcReadsZero := fun hh a ha => by
    have h8 := inRamWindow_upper ha
    rw [State.readByte_upper _ h8]; exact h.rtc_stored hh a ha
  romBankForced := hf
  banksKept := fun hh => absurd hh hns
  cartridge := fun img hi => by
    obtain ⟨h1, h2, h3, _⟩ := h.cartridge img hi
    exact ⟨h1, h2, h3, hb⟩
  romNotStored := h.romNotStored
  anonymousKind := h.anonymousKind
  timerReadsZero := by
    rw [State.readByte_upper _ (by exact (Config.timer_placed s.config).1)]; exact State.Inv.timer_stored (s := s) h
  itemsOnlyLive := fun hp => absurd hl hp

/-- A change of MBC1's two auxiliary registers. -/
theorem State.Inv.after_auxiliary {s : State} (h : s.Inv) (hl : s.phase = .live) (hf : s.family = .mbc1) (m :
    BankMode) (d : BankNo) (hd : d &&& 0x1F = 0) : ({ s with bankModeFlag := m, bankModeData := d } : State).Inv where
  spaceWf := h.spaceWf
  spaceWithin := h.spaceWithin
  storeWf := h.storeWf
  storeWithin := h.storeWithin
  ramBankInRange := h.ramBankInRange
  stashLowBitsZero := hd
  auxiliaryOnlyMbc1 := fun hn => absurd hf hn
  rtcOnlyMbc3 := h.rtcOnlyMbc3
  rtcReadsZero := h.rtcReadsZero
  romBankForced := h.romBankForced
  banksKept := h.banksKept
  cartridge := h.cartridge
  romNotStored := h.romNotStored
  anonymousKind := h.anonymousKind
  timerReadsZero := h.timerReadsZero
  itemsOnlyLive := fun hp => absurd hl hp

end Sys2Proof.Machine
end

