-- ==== Sys2Proof/Laws/PerInstr.lean ====
section
/-! SUPPORT. Statements about every instruction as syntax, one lemma per constructor. Family `RowMatch`: the word of a
well-formed write command lies in a row of the opcode map (R84) that makes that command of it. -/

namespace Sys2Proof.Laws

/-- The word an instruction encodes to matches mask and pattern of a row that makes the instruction back from the word's two
fields. (READ, INIT, FREE and DUMP encode to no word.) -/
def RowMatch.Statement (i : Instr) : Prop :=
  ∀ (c : Config) (t : BitVec 24), i.wf c = true → encode c i = .wr t →
    ∃ r ∈ commandRows c, t &&& r.mask = r.pattern ∧ r.make (wordAddr t) (wordValue t) = i

/-- Row `k` of the map. -/
theorem RowMatch.row {c : Config} (k : Nat) (hk : k < (commandRows c).length) : (commandRows c)[k] ∈ commandRows c :=
  List.getElem_mem hk

/-- From a row that matches the word of an address and a value. -/
theorem RowMatch.intro {i : Instr} {a : Addr} {v : Byte} (he : ∀ c, encode c i = .wr (writeWord a v))
    (row : ∀ c, i.wf c = true → ∃ r ∈ commandRows c, writeWord a v &&& r.mask = r.pattern ∧ r.make a v = i) :
    RowMatch.Statement i := by
  intro c t hw ht
  rw [he, Request.wr.injEq] at ht
  subst ht
  simpa using row c hw

theorem RowMatch.unsupW (a : Addr) (v : Byte) : RowMatch.Statement (.unsupW a v) := by
  refine RowMatch.intro (fun _ => rfl) fun c hw => ⟨_, RowMatch.row 0 (by decide : 0 < 21), ?_, rfl⟩
  simp only [Instr.wf, inRange_iff] at hw
  exact (match_lowerHalf _).2 (by simp only [wordAddr_writeWord]; omega)

theorem RowMatch.latchNop (a : Addr) (v : Byte) : RowMatch.Statement (.latchNop a v) := by
  refine RowMatch.intro (fun _ => rfl) fun c hw => ⟨_, RowMatch.row 1 (by decide : 1 < 21), ?_, rfl⟩
  simp only [Instr.wf, inRange_iff] at hw
  exact (match_range0 _).2 (by simp only [wordAddr_writeWord]; omega)

theorem RowMatch.noneIgn (a : Addr) (v : Byte) : RowMatch.Statement (.noneIgn a v) := by
  refine RowMatch.intro (fun _ => rfl) fun c hw => ⟨_, RowMatch.row 2 (by decide : 2 < 21), ?_, rfl⟩
  simp only [Instr.wf, inRange_iff] at hw
  exact (match_lowerHalf _).2 (by simp only [wordAddr_writeWord]; omega)

theorem RowMatch.mbc1Romb (a : Addr) (v : Byte) : RowMatch.Statement (.mbc1Romb a v) := by
  refine RowMatch.intro (fun _ => rfl) fun c hw => ⟨_, RowMatch.row 3 (by decide : 3 < 21), ?_, rfl⟩
  simp only [Instr.wf, inRange_iff] at hw
  exact (match_range1 _).2 (by simp only [wordAddr_writeWord]; omega)

theorem RowMatch.mbc1Stash (a : Addr) (v : Byte) : RowMatch.Statement (.mbc1Stash a v) := by
  refine RowMatch.intro (fun _ => rfl) fun c hw => ⟨_, RowMatch.row 4 (by decide : 4 < 21), ?_, rfl⟩
  simp only [Instr.wf, inRange_iff] at hw
  exact (match_range2 _).2 (by simp only [wordAddr_writeWord]; omega)

theorem RowMatch.mbc1Ramb (a : Addr) (v : Byte) : RowMatch.Statement (.mbc1Ramb a v) := by
  refine RowMatch.intro (fun _ => rfl) fun c hw => ⟨_, RowMatch.row 5 (by decide : 5 < 21), ?_, rfl⟩
  simp only [Instr.wf, inRange_iff] at hw
  exact (match_range2 _).2 (by simp only [wordAddr_writeWord]; omega)

theorem RowMatch.mbc1Mode (a : Addr) (v : Byte) : RowMatch.Statement (.mbc1Mode a v) := by
  refine RowMatch.intro (fun _ => rfl) fun c hw => ⟨_, RowMatch.row 6 (by decide : 6 < 21), ?_, rfl⟩
  simp only [Instr.wf, inRange_iff] at hw
  exact (match_range3 _).2 (by simp only [wordAddr_writeWord]; omega)

theorem RowMatch.mbc3Romb (a : Addr) (v : Byte) : RowMatch.Statement (.mbc3Romb a v) := by
  refine RowMatch.intro (fun _ => rfl) fun c hw => ⟨_, RowMatch.row 7 (by decide : 7 < 21), ?_, rfl⟩
  simp only [Instr.wf, inRange_iff] at hw
  exact (match_range1 _).2 (by simp only [wordAddr_writeWord]; omega)

theorem RowMatch.mbc3Ramb (a : Addr) (v : Byte) : RowMatch.Statement (.mbc3Ramb a v) := by
  refine RowMatch.intro (fun _ => rfl) fun c hw => ⟨_, RowMatch.row 8 (by decide : 8 < 21), ?_, rfl⟩
  simp only [Instr.wf, Bool.and_eq_true, inRange_iff] at hw
  exact (match_range2 _).2 (by simp only [wordAddr_writeWord]; omega)

theorem RowMatch.mbc3Rtcsel (a : Addr) (v : Byte) : RowMatch.Statement (.mbc3Rtcsel a v) := by
  refine RowMatch.intro (fun _ => rfl) fun c hw => ⟨_, RowMatch.row 9 (by decide : 9 < 21), ?_, rfl⟩
  simp only [Instr.wf, Bool.and_eq_true, inRange_iff] at hw
  exact (match_range2 _).2 (by simp only [wordAddr_writeWord]; omega)

theorem RowMatch.mbc3Latch (a : Addr) (v : Byte) : RowMatch.Statement (.mbc3Latch a v) := by
  refine RowMatch.intro (fun _ => rfl) fun c hw => ⟨_, RowMatch.row 10 (by decide : 10 < 21), ?_, rfl⟩
  simp only [Instr.wf, inRange_iff] at hw
  exact (match_range3 _).2 (by simp only [wordAddr_writeWord]; omega)

theorem RowMatch.mbc5Romb (a : Addr) (v : Byte) : RowMatch.Statement (.mbc5Romb a v) := by
  refine RowMatch.intro (fun _ => rfl) fun c hw => ⟨_, RowMatch.row 11 (by decide : 11 < 21), ?_, rfl⟩
  simp only [Instr.wf, inRange_iff] at hw
  exact (match_range1 _).2 (by simp only [wordAddr_writeWord]; omega)

theorem RowMatch.mbc5Ramb (a : Addr) (v : Byte) : RowMatch.Statement (.mbc5Ramb a v) := by
  refine RowMatch.intro (fun _ => rfl) fun c hw => ⟨_, RowMatch.row 12 (by decide : 12 < 21), ?_, rfl⟩
  simp only [Instr.wf, inRange_iff] at hw
  exact (match_range2 _).2 (by simp only [wordAddr_writeWord]; omega)

theorem RowMatch.mbc5Na (a : Addr) (v : Byte) : RowMatch.Statement (.mbc5Na a v) := by
  refine RowMatch.intro (fun _ => rfl) fun c hw => ⟨_, RowMatch.row 13 (by decide : 13 < 21), ?_, rfl⟩
  simp only [Instr.wf, inRange_iff] at hw
  exact (match_range3 _).2 (by simp only [wordAddr_writeWord]; omega)

theorem RowMatch.timerW (v : Byte) : RowMatch.Statement (.timerW v) := by
  intro c t _ ht
  obtain rfl : writeWord c.addrTimerReset v = t := Request.wr.inj ht
  exact ⟨_, RowMatch.row 14 (by decide : 14 < 21), (match_addr _ _).2 (wordAddr_writeWord _ _),
    by simp [commandRows, romRegionRows, upperRows]⟩

theorem RowMatch.inputW (v : Byte) : RowMatch.Statement (.inputW v) := by
  intro c t _ ht
  obtain rfl : writeWord c.addrInputPoll v = t := Request.wr.inj ht
  exact ⟨_, RowMatch.row 15 (by decide : 15 < 21), (match_addr _ _).2 (wordAddr_writeWord _ _),
    by simp [commandRows, romRegionRows, upperRows]⟩

theorem RowMatch.serialW (v : Byte) : RowMatch.Statement (.serialW v) := by
  intro c t _ ht
  obtain rfl : writeWord c.addrSerialData v = t := Request.wr.inj ht
  exact ⟨_, RowMatch.row 16 (by decide : 16 < 21), (match_addr _ _).2 (wordAddr_writeWord _ _),
    by simp [commandRows, romRegionRows, upperRows]⟩

theorem RowMatch.dmaW (v : Byte) : RowMatch.Statement (.dmaW v) := by
  intro c t _ ht
  obtain rfl : writeWord c.addrDmaTrigger v = t := Request.wr.inj ht
  exact ⟨_, RowMatch.row 17 (by decide : 17 < 21), (match_addr _ _).2 (wordAddr_writeWord _ _),
    by simp [commandRows, romRegionRows, upperRows]⟩

theorem RowMatch.rtcwinW (a : Addr) (v : Byte) : RowMatch.Statement (.rtcwinW a v) := by
  refine RowMatch.intro (fun _ => rfl) fun c hw => ⟨_, RowMatch.row 18 (by decide : 18 < 21), ?_, rfl⟩
  simp only [Instr.wf, inRange_iff] at hw
  exact (match_range5 _).2 (by simp only [wordAddr_writeWord]; omega)

theorem RowMatch.hramW (a : Addr) (v : Byte) : RowMatch.Statement (.hramW a v) := by
  refine RowMatch.intro (fun _ => rfl) fun c hw => ⟨_, RowMatch.row 19 (by decide : 19 < 21), ?_, rfl⟩
  simp only [Instr.wf, inRange_iff] at hw
  exact (match_highRam _).2 (by simp only [wordAddr_writeWord]; omega)

theorem RowMatch.storeW (a : Addr) (v : Byte) : RowMatch.Statement (.storeW a v) := by
  refine RowMatch.intro (fun _ => rfl) fun c hw => ⟨_, RowMatch.row 20 (by decide : 20 < 21), ?_, rfl⟩
  simp only [Instr.wf, Bool.and_eq_true, inRange_iff] at hw
  exact (match_upperHalf _).2 (by simp only [wordAddr_writeWord]; omega)

theorem RowMatch.read (a : Addr) : RowMatch.Statement (.read a) := fun _ _ _ h => by simp [encode] at h

theorem RowMatch.init (src : Source) : RowMatch.Statement (.init src) := fun _ _ _ h => by simp [encode] at h

theorem RowMatch.free : RowMatch.Statement .free := fun _ _ _ h => by simp [encode] at h

theorem RowMatch.dump : RowMatch.Statement .dump := fun _ _ _ h => by simp [encode] at h

end Sys2Proof.Laws
end

