-- ==== Sys2Proof/Tests/Slice0.lean ====
section
/-! SUPPORT. Tests: the well-formedness checks refuse ill-formed terms, words written out bit by bit from
spec/30_encoding.md R84 decode to their commands, one step each of the vectors of spec/95_test_vectors.md (their ids stand
beside the tests), and for every statement with hypotheses a concrete input that meets them. -/

open Sys2Proof Sys2Proof.Machine

namespace Sys2Proof.Tests

/-! ## Small states -/

/-- `rom128(K)` of the vectors, with the first byte of a few banks and the header byte alone. -/
def rom128 (k : Byte) : Image where
  len := 0x200000
  bytes := [(0x147, k), (0x4000, 1), (0x14000, 5), (0x8C000, 0x23), (0x1FC000, 0x7F)]

/-- `rom2(K)` of the vectors: the shortest image INIT takes. -/
def rom2 (k : Byte) : Image := { len := 0x8000, bytes := [(0x147, k), (0x4000, 1)] }

/-- The image `hdr` of the vectors. -/
def hdr : Image where
  len := 0x8000
  bytes := [(0x134, 0x41), (0x135, 0x42), (0x136, 0x43), (0x137, 0x44), (0x138, 0x45), (0x139, 0x46), (0x13A, 0x47),
    (0x13B, 0x48), (0x13C, 0x49), (0x13D, 0x4A), (0x13E, 0x4B), (0x13F, 0x4C), (0x140, 0x4D), (0x141, 0x4E),
    (0x142, 0x4F), (0x147, 0x13), (0x148, 0x05), (0x149, 0x03)]

/-- The state after INIT with an image. -/
def live (img : Image) : State := State.powerOn.started (some img) (kindOfCode State.powerOn.config (imageByte img 0x147)) []

/-- One field of the next state, if there is one. -/
def after {α : Type} (r : Result) (f : State → α) : Option α :=
  match r with
  | .next t => some (f t)
  | .fault _ => none
  | .refused _ => none

/-- The default context of a family. -/
def ctx (f : Family) (m : BankMode) (rtc : Bool) : DecodeCtx := ⟨Config.default, f, m, rtc⟩

/-! ## The well-formedness checks refuse -/

theorem test_wf_unsupW : (Instr.unsupW 0x8000 0).wf Config.default = false := by decide
theorem test_wf_latchNop : (Instr.latchNop 0x2000 0).wf Config.default = false := by decide
theorem test_wf_noneIgn : (Instr.noneIgn 0x1FFF 0).wf Config.default = false ∧
    (Instr.noneIgn 0x8000 0).wf Config.default = false := by decide
theorem test_wf_romSelect : (Instr.mbc1Romb 0x1FFF 0).wf Config.default = false ∧
    (Instr.mbc3Romb 0x4000 0).wf Config.default = false ∧ (Instr.mbc5Romb 0x4000 0).wf Config.default = false := by decide
theorem test_wf_ramSelect : (Instr.mbc1Stash 0x3FFF 0).wf Config.default = false ∧
    (Instr.mbc1Ramb 0x6000 0).wf Config.default = false ∧ (Instr.mbc5Ramb 0x6000 0).wf Config.default = false := by decide
theorem test_wf_mbc3Ramb : (Instr.mbc3Ramb 0x4000 5).wf Config.default = false ∧
    (Instr.mbc3Ramb 0x3FFF 4).wf Config.default = false := by decide
theorem test_wf_mbc3Rtcsel : (Instr.mbc3Rtcsel 0x4000 4).wf Config.default = false ∧
    (Instr.mbc3Rtcsel 0x6000 5).wf Config.default = false := by decide
theorem test_wf_highRange : (Instr.mbc1Mode 0x5FFF 0).wf Config.default = false ∧
    (Instr.mbc3Latch 0x8000 0).wf Config.default = false ∧ (Instr.mbc5Na 0x8000 0).wf Config.default = false := by decide
theorem test_wf_rtcwinW : (Instr.rtcwinW 0x9FFF 0).wf Config.default = false ∧
    (Instr.rtcwinW 0xC000 0).wf Config.default = false := by decide
theorem test_wf_hramW : (Instr.hramW 0xFF7F 0).wf Config.default = false := by decide
theorem test_wf_storeW : (Instr.storeW 0x7FFF 0).wf Config.default = false ∧
    (Instr.storeW 0xFF80 0).wf Config.default = false ∧ (Instr.storeW 0xFF04 0).wf Config.default = false := by decide

/-- An image that lists an offset beyond its length, a zero byte, or offsets out of order. -/
theorem test_wf_image : (Instr.init (.cartridge ⟨4, [(4, 1)]⟩)).wf Config.default = false ∧
    (Instr.init (.cartridge ⟨4, [(0, 0)]⟩)).wf Config.default = false ∧
    (Instr.init (.cartridge ⟨4, [(2, 1), (1, 1)]⟩)).wf Config.default = false := by decide

/-- A preload outside the ROM region (R64). -/
theorem test_wf_preload : (Instr.init (.anonymous [(0x8000, 1)])).wf Config.default = false := by decide

/-- The decoder names what it rejects. -/
theorem test_decode_rejects : decode resetCtx (.init (.cartridge ⟨4, [(4, 1)]⟩)) = .error .imageMalformed ∧
    decode resetCtx (.init (.anonymous [(0x8000, 1)])) = .error .preloadMalformed ∧
    requestOfBits 24 0x1000000 = .error (.wordTooWide 24) ∧ requestOfBits 8 0 = .error (.noFormat 8) := ⟨rfl, rfl, rfl, rfl⟩

/-- A configuration that breaks R6: too few RAM banks, a special address in high RAM, two equal addresses. -/
theorem test_config_refused : ({ defaultParams with maxRamBanks := 4 } : Params).ok = false ∧
    ({ defaultParams with addrTimerReset := 0xFF80 } : Params).ok = false ∧
    ({ defaultParams with addrDmaTrigger := 0xA000 } : Params).ok = false ∧
    ({ defaultParams with addrDmaTrigger := 0xFE9F } : Params).ok = false ∧
    ({ defaultParams with addrSerialData := 0xFF00 } : Params).ok = false := by decide

/-! ## Words of the map, written out from R81 and R84: 16 address bits, then 8 value bits -/

theorem test_word_unsup : decode (ctx .mbc2 .rom false) (.wr 0b0010000000000000_00000011) = .ok (.unsupW 0x2000 3) ∧
    decode (ctx .unsupported .rom false) (.wr 0b0111111111111111_00000000) = .ok (.unsupW 0x7FFF 0) := ⟨rfl, rfl⟩
theorem test_word_latch : decode (ctx .none .rom false) (.wr 0b0001111111111111_00001010) = .ok (.latchNop 0x1FFF 0x0A) ∧
    decode (ctx .mbc5 .rom false) (.wr 0b0000000000000000_00001010) = .ok (.latchNop 0 0x0A) := ⟨rfl, rfl⟩
theorem test_word_noneIgn : decode (ctx .none .rom false) (.wr 0b0010000000000000_00000101) = .ok (.noneIgn 0x2000 5) := rfl
theorem test_word_mbc1Romb : decode (ctx .mbc1 .rom false) (.wr 0b0010000100000000_00000011) = .ok (.mbc1Romb 0x2100 3) := rfl
theorem test_word_mbc1Stash : decode (ctx .mbc1 .rom false) (.wr 0b0100000000000000_00000001) = .ok (.mbc1Stash 0x4000 1) :=
  rfl
theorem test_word_mbc1Ramb : decode (ctx .mbc1 .ram false) (.wr 0b0100000000000000_00000010) = .ok (.mbc1Ramb 0x4000 2) := rfl
theorem test_word_mbc1Mode : decode (ctx .mbc1 .rom false) (.wr 0b0110000000000000_00000001) = .ok (.mbc1Mode 0x6000 1) := rfl
theorem test_word_mbc3Romb : decode (ctx .mbc3 .rom false) (.wr 0b0010000000000000_10000101) = .ok (.mbc3Romb 0x2000 0x85) :=
  rfl
theorem test_word_mbc3Ramb : decode (ctx .mbc3 .rom false) (.wr 0b0100000000000000_00000100) = .ok (.mbc3Ramb 0x4000 4) := rfl
theorem test_word_mbc3Rtcsel : decode (ctx .mbc3 .rom false) (.wr 0b0100000000000000_00000101) = .ok (.mbc3Rtcsel 0x4000 5) :=
  rfl
theorem test_word_mbc3Latch : decode (ctx .mbc3 .rom false) (.wr 0b0110000000000000_00000001) = .ok (.mbc3Latch 0x6000 1) :=
  rfl
theorem test_word_mbc5Romb : decode (ctx .mbc5 .rom false) (.wr 0b0011000000000000_00000000) = .ok (.mbc5Romb 0x3000 0) := rfl
theorem test_word_mbc5Ramb : decode (ctx .mbc5 .rom false) (.wr 0b0100000000000000_00000011) = .ok (.mbc5Ramb 0x4000 3) := rfl
theorem test_word_mbc5Na : decode (ctx .mbc5 .rom false) (.wr 0b0111111111111111_11111111) = .ok (.mbc5Na 0x7FFF 0xFF) := rfl
theorem test_word_timerW : decode (ctx .none .rom false) (.wr 0b1111111100000100_10101011) = .ok (.timerW 0xAB) := rfl
theorem test_word_inputW : decode (ctx .none .rom false) (.wr 0b1111111100000000_11101111) = .ok (.inputW 0xEF) := rfl
theorem test_word_serialW : decode (ctx .none .rom false) (.wr 0b1111111100000001_01000001) = .ok (.serialW 0x41) := rfl
theorem test_word_dmaW : decode (ctx .none .rom false) (.wr 0b1111111101000110_11000000) = .ok (.dmaW 0xC0) := rfl
theorem test_word_rtcwinW : decode (ctx .mbc3 .rom true) (.wr 0b1010000000000000_01110111) = .ok (.rtcwinW 0xA000 0x77) := rfl
theorem test_word_hramW : decode (ctx .none .rom false) (.wr 0b1111111110010101_11001001) = .ok (.hramW 0xFF95 0xC9) := rfl
theorem test_word_storeW : decode (ctx .mbc3 .rom false) (.wr 0b1010000000000000_01110111) = .ok (.storeW 0xA000 0x77) ∧
    decode (ctx .none .rom false) (.wr 0b1111111101111111_00000001) = .ok (.storeW 0xFF7F 1) := ⟨rfl, rfl⟩
theorem test_word_read : decode (ctx .none .rom false) (.rd 0b1010000000000000) = .ok (.read 0xA000) := rfl
theorem test_word_noBits : decode resetCtx (.init (.anonymous [])) = .ok (.init (.anonymous [])) ∧
    decode resetCtx .free = .ok .free ∧ decode resetCtx .dump = .ok .dump := ⟨rfl, rfl, rfl⟩

/-- A bare word right after reset (family NONE): 24 bits are a write, 16 a read, no other width is a request. -/
theorem test_tableWord : decodeTableWord 24 0xFF46C0 = some (.dmaW 0xC0) ∧ decodeTableWord 24 0x200003 = some (.noneIgn 0x2000 3) ∧
    decodeTableWord 16 0xA000 = some (.read 0xA000) ∧ decodeTableWord 0 0 = none := ⟨rfl, rfl, rfl, rfl⟩

/-! ## One step each -/

/-- L01 -/
theorem test_init : after (exec (.init (.cartridge (rom128 0x01))) State.powerOn)
    (fun t => (t.phase, t.controllerKind, t.romBankIndex, t.readByte 0x4000, t.readByte 0x147)) =
    some (.live, .mbc1, 1, 1, 1) := by decide
/-- L03 -/
theorem test_init_short : after (exec (.init (.cartridge ⟨0x7FFF, []⟩)) State.powerOn) (fun t => (t.phase, t.reply)) =
    some (.uninit, .error (.initError .mapping)) := by decide
/-- L08, L09, L10 -/
theorem test_lifecycle : exec (.storeW 0xC000 1) State.powerOn = .fault (.lifecycle .write .uninit) ∧
    exec (.init (.anonymous [])) State.reset = .fault (.lifecycle .init .live) ∧
    exec (.read 0) { State.powerOn with phase := .freed } = .fault (.lifecycle .read .freed) := ⟨rfl, rfl, rfl⟩
/-- L11 -/
theorem test_free_unmap_fails :
    after (exec .free { State.reset with inputs := ⟨0, true, true, false⟩ }) (fun t => (t.phase, t.reply)) =
    some (.freed, .error .teardownError) := by decide
/-- L10 -/
theorem test_free : after (exec .free (live (rom2 1))) (fun t => (t.phase, t.reply, t.cartridgeHandle)) =
    some (.freed, .none, none) := by decide
/-- L13 -/
theorem test_dump : after (exec .dump (live hdr)) (fun t => t.reply) =
    some (.summary ⟨#v[0x41, 0x42, 0x43, 0x44, 0x45, 0x46, 0x47, 0x48, 0x49, 0x4A, 0x4B, 0x4C, 0x4D, 0x4E, 0x4F],
      #v[0x4C, 0x4D, 0x4E, 0x4F], 0x13, 0x05, 0x03⟩) := by decide
/-- B02: the last byte of the header of the window -/
theorem test_read : after (exec (.read 0x4000) { live (rom128 0x19) with romBankIndex := 0x7F }) (fun t => t.reply) =
    some (.value 0x7F) := by decide
/-- P4, step 2 -/
theorem test_unsupW : after (exec (.unsupW 0x2000 3) (live (rom2 5))) (fun t => (t.sink, t.romBankIndex)) =
    some ([.unsupportedController .mbc2 0x2000 3], 1) := by decide
/-- L07, B16, M3xx: no effect -/
theorem test_noEffect : exec (.latchNop 0 0xAA) State.reset = .next State.reset ∧
    exec (.noneIgn 0x2000 5) State.reset = .next State.reset ∧
    exec (.mbc3Latch 0x6000 1) (live (rom128 0x13)) = .next (live (rom128 0x13)) ∧
    exec (.mbc5Na 0x7FFF 0xFF) (live (rom128 0x19)) = .next (live (rom128 0x19)) ∧
    exec (.rtcwinW 0xA000 0x77) (live (rom128 0x13)) = .next (live (rom128 0x13)) := ⟨rfl, rfl, rfl, rfl, rfl⟩
/-- M106 and M107: combine before forcing -/
theorem test_mbc1Romb : after (exec (.mbc1Romb 0x2100 3) { live (rom128 1) with bankModeData := 0x20 })
      (fun t => (t.romBankIndex, t.readByte 0x4000)) = some (0x23, 0x23) ∧
    after (exec (.mbc1Romb 0x2000 0) { live (rom128 1) with bankModeData := 0x20 }) (fun t => t.romBankIndex) =
      some 0x20 := by decide
/-- M110 -/
theorem test_mbc1Romb_remapError : after (exec (.mbc1Romb 0x2000 0xFF) { live (rom128 1) with bankModeData := 0x1FE0 })
    (fun t => (t.romBankIndex, t.sink)) = some (1, [.remapError 0x1FFF]) := by decide
/-- M105, M110 -/
theorem test_mbc1Stash : after (exec (.mbc1Stash 0x4000 1) (live (rom128 1))) (fun t => (t.bankModeData, t.romBankIndex)) =
      some (0x20, 1) ∧
    after (exec (.mbc1Stash 0x4000 0xFF) (live (rom128 1))) (fun t => t.bankModeData) = some 0x1FE0 := by decide
/-- P1, step 11 -/
theorem test_mbc1Ramb : after (exec (.mbc1Ramb 0x4000 2) { live (rom128 1) with addressSpace := [(0xA000, 0x5A)] })
    (fun t => (t.addressSpace, t.ramBankStore, t.ramBankIndex)) = some ([], [(0, 0x5A)], 2) := by decide
/-- M113 -/
theorem test_mbc1Mode : after (exec (.mbc1Mode 0x6000 0xFE) { live (rom128 1) with bankModeFlag := .ram })
    (fun t => t.bankModeFlag) = some .rom := by decide
/-- P2, steps 1 and 2 -/
theorem test_mbc3Romb : after (exec (.mbc3Romb 0x2000 0xFF) (live (rom128 0x13))) (fun t => t.romBankIndex) = some 0x7F ∧
    after (exec (.mbc3Romb 0x2000 0x80) { live (rom128 0x13) with romBankIndex := 5 }) (fun t => t.romBankIndex) =
      some 1 := by decide
/-- E4, last write: the bank that was in the window comes back -/
theorem test_mbc3Ramb : after (exec (.mbc3Ramb 0x4000 2)
      { live (rom128 0x13) with ramBankIndex := 2, rtcWindowActive := true, ramBankStore := [(0x4000, 0x77)] })
    (fun t => (t.addressSpace, t.rtcWindowActive, t.ramBankIndex)) = some ([(0xA000, 0x77)], false, 2) := by decide
/-- E4, third write -/
theorem test_mbc3Rtcsel : after (exec (.mbc3Rtcsel 0x4000 5)
      { live (rom128 0x13) with ramBankIndex := 2, addressSpace := [(0x9FFF, 1), (0xA000, 0x77), (0xC000, 2)] })
    (fun t => (t.addressSpace, t.ramBankStore, t.rtcWindowActive, t.ramBankIndex)) =
    some ([(0x9FFF, 1), (0xC000, 2)], [(0x4000, 0x77)], true, 2) := by decide
/-- B03, B05 -/
theorem test_mbc5Romb : after (exec (.mbc5Romb 0x2000 0x80) (live (rom128 0x19))) (fun t => (t.romBankIndex, t.sink)) =
      some (1, [.remapError 0x80]) ∧
    after (exec (.mbc5Romb 0x2000 0) (live (rom128 0x19))) (fun t => t.readByte 0x4147) = some 0x19 := by decide
/-- B09, B10 -/
theorem test_mbc5Ramb : after (exec (.mbc5Ramb 0x4000 0x0F) (live (rom128 0x19))) (fun t => t.ramBankIndex) = some 15 ∧
    exec (.mbc5Ramb 0x4000 0x10) (live (rom128 0x19)) = .fault (.ramBankRange 0x10) := ⟨by decide, rfl⟩
/-- T01 -/
theorem test_timerW : after (exec (.timerW 0xAB) { State.reset with addressSpace := [(0xFF04, 9)] })
    (fun t => t.readByte 0xFF04) = some 0 := by decide
/-- I04, I09 -/
theorem test_inputW : after (exec (.inputW 0xCF) { State.reset with inputs := ⟨0x6A, true, true, true⟩ })
      (fun t => t.readByte 0xFF00) = some 0xF1 ∧
    after (exec (.inputW 0x10) { State.reset with inputs := ⟨0x81, true, true, true⟩ }) (fun t => t.readByte 0xFF00) =
      some 0xF7 := by decide
/-- X01 -/
theorem test_serialW : after (exec (.serialW 0x41) State.reset) (fun t => t.addressSpace) = some [(0xFF01, 0x41)] := by decide
/-- P3, step 5 -/
theorem test_dmaW : after (exec (.dmaW 0xC0)
      { State.reset with addressSpace := [(0xC000, 1), (0xC09F, 0x9F), (0xC0A0, 0xEE), (0xFEA0, 0x33)] })
    (fun t => t.addressSpace) = some [(0xC000, 1), (0xC09F, 0x9F), (0xC0A0, 0xEE), (0xFE00, 1), (0xFE9F, 0x9F),
      (0xFEA0, 0x33), (0xFF46, 0xC0)] := by decide
/-- DM02: the trigger byte is stored before the copy -/
theorem test_dmaW_trigger : after (exec (.dmaW 0xFF) { State.reset with addressSpace := [(0xFF01, 0x41)] })
    (fun t => t.addressSpace) = some [(0xFE01, 0x41), (0xFE46, 0xFF), (0xFF01, 0x41), (0xFF46, 0xFF)] := by decide

/-- The table of H09. -/
def nested : BlockTable := ((((Vector.replicate blockSlots BlockEntry.empty).set 0x00 ⟨0xFF80, 0xFFB0, 1⟩).set
  0x10 ⟨0xFF90, 0xFFA0, 3⟩).set 0x18 ⟨0xFF98, 0xFF9C, 2⟩)

/-- H10 -/
theorem test_hramW : after (exec (.hramW 0xFF9D 7) { State.reset with blockTable := nested })
    (fun t => (t.releaseCalls, t.blockTable[0x10].executionCount, t.blockTable[0x18].executionCount, t.readByte 0xFF9D)) =
    some ([0x00, 0x10], 0, 2, 7) := by decide +kernel
/-- H05: the first byte of a block; the bound is strict -/
theorem test_hramW_firstByte : after (exec (.hramW 0xFF90 0) { State.reset with blockTable := nested })
    (fun t => (t.releaseCalls, t.blockTable[0x10].executionCount)) = some ([0x00], 3) := by decide +kernel
/-- S01, no echo and no scan: S02 -/
theorem test_storeW : after (exec (.storeW 0xFF7F 1) { State.reset with blockTable := nested })
    (fun t => (t.addressSpace, t.releaseCalls)) = some ([(0xFF7F, 1)], []) := by decide

/-- A word put at the head of the inbox is the next operation. -/
theorem test_fetch : after (step (State.reset.withFetchWord 24 0xC00012)) (fun t => t.addressSpace) =
    some [(0xC000, 0x12)] := by decide

/-! ## Witnesses: an input that meets the hypotheses of each statement, at the boundary values of its clauses

Where a hypothesis says that an instruction answers a next state, the witness shows that there is one. -/

/-- A live instance in the RTC view, and one with an unmapping that fails. -/
def rtcLive : State := accessRtc (live (rom128 0x13))
def unmapFails : State := { State.reset with inputs := ⟨0, true, true, false⟩ }

theorem test_inv_live : (live (rom128 0x13)).Inv :=
  State.started_inv State.powerOn _ _ _ Memory.wf_nil (Memory.within_nil _ _)
    (fun img h => by injection h with h; subst h; exact ⟨by decide, by decide, rfl, rfl⟩) (fun h => by simp at h)

theorem test_inv_rtcLive : rtcLive.Inv := State.Inv.after_accessRtc test_inv_live rfl rfl

/-- For `InitGivesTheStatedResetTable` and `InitWithoutCartridgeShowsThePreload`. -/
theorem test_witness_init : State.powerOn.phase = .uninit ∧ State.powerOn.inputs.openOk = true ∧
    State.powerOn.inputs.mapOk = true ∧ 0x8000 ≤ (rom2 1).len ∧ (0x7FFF#16).toNat < 0x8000 ∧ 0x8000 ≤ (0x8000#16).toNat ∧
    (Source.anonymous [(0, 1), (0x7FFF, 2)]).wf = true := by decide

/-- For `InitErrorRetainsNothing`: the open fails; the image is one byte short; the mapping fails, with and without a
cartridge. -/
theorem test_witness_initError :
    (let s := { State.powerOn with inputs := ⟨0, false, true, true⟩ }; s.phase = .uninit ∧ s.inputs.openOk = false) ∧
    (State.powerOn.inputs.openOk = true ∧ (⟨0x7FFF, []⟩ : Image).len < 0x8000) ∧
    (let s := { State.powerOn with inputs := ⟨0, true, false, true⟩ };
      s.phase = .uninit ∧ s.inputs.openOk = true ∧ s.inputs.mapOk = false) ∧ operationOf .free ≠ .init := by decide

/-- For `OperationsOutOfPhaseFault`, each clause. -/
theorem test_witness_outOfPhase : (operationOf (.init (.anonymous [])) = .init ∧ State.reset.phase ≠ .uninit) ∧
    (operationOf .dump ≠ .init ∧ State.powerOn.phase ≠ .live) ∧
    exec .dump State.powerOn = .fault (.lifecycle .dump .uninit) ∧
    (∃ t, exec (.init (.anonymous [])) State.powerOn = .next t) ∧ (∃ t, exec .free State.reset = .next t) ∧
    (operationOf .dump ≠ .free ∧ ∃ t, exec .dump State.reset = .next t) :=
  ⟨by decide, by decide, rfl, ⟨_, rfl⟩, ⟨_, rfl⟩, by decide, ⟨_, rfl⟩⟩

/-- For `ReadReturnsTheByteAndChangesNothing`: live and not; the last ROM address; both ends of the window in the view. -/
theorem test_witness_read : State.reset.phase = .live ∧ State.powerOn.phase ≠ .live ∧
    (live (rom2 1)).cartridgeHandle = some (rom2 1) ∧ (0x7FFF#16).toNat < 0x8000 ∧ rtcLive.Inv ∧
    rtcLive.rtcWindowActive = true ∧ inRamWindow 0xA000 ∧ inRamWindow 0xBFFF :=
  ⟨rfl, by decide, rfl, by decide, test_inv_rtcLive, rfl, by unfold inRamWindow; decide, by unfold inRamWindow; decide⟩

/-- For `FreeReleasesEverything`, `TeardownErrorIsReportedAfterTheRelease` and `DumpReturnsTheHeaderBytes`. -/
theorem test_witness_free : State.reset.phase = .live ∧ State.reset.inputs.unmapOk = true ∧ unmapFails.phase = .live ∧
    unmapFails.inputs.unmapOk = false := ⟨rfl, rfl, rfl, rfl⟩

/-- For `NothingOfTheInstanceSurvivesFree`: two instances with different cartridges and RAM. -/
theorem test_witness_nothingSurvives :
    (live (rom2 1)).phase = .live ∧ { live (rom128 0x13) with addressSpace := [(0xA000, 1)] }.phase = .live ∧
    (live (rom2 1)).withoutItems = { live (rom128 0x13) with addressSpace := [(0xA000, 1)] }.withoutItems ∧
    ∃ t, exec .free (live (rom2 1)) = .next t := ⟨rfl, rfl, rfl, _, rfl⟩

/-- For `RomRegionShowsTheImage`: both sides of 0x4000 and the last address. -/
theorem test_witness_romRegion : (live (rom128 0x13)).cartridgeHandle = some (rom128 0x13) ∧ (live (rom128 0x13)).Inv ∧
    (0x3FFF#16).toNat < 0x4000 ∧ 0x4000 ≤ (0x4000#16).toNat ∧ (0x7FFF#16).toNat < 0x8000 :=
  ⟨rfl, test_inv_live, by decide⟩

/-- For `RomWindowDependsOnTheBankAlone`: the lowest and the highest bank. -/
theorem test_witness_romWindow : (live (rom128 0x19)).cartridgeHandle = some (rom128 0x19) ∧
    (0x000#13).toNat < (live (rom128 0x19)).romBanks ∧ (0x07F#13).toNat < (live (rom128 0x19)).romBanks ∧
    0x4000 ≤ (0x7FFF#16).toNat ∧ (0x7FFF#16).toNat < 0x8000 := by decide

/-- For the three ROM-bank selects: the current bank, the last bank that exists, the first that does not. -/
theorem test_witness_romSelect : (live (rom128 1)).phase = .live ∧ (1#13) = (live (rom128 1)).romBankIndex ∧
    (0x7F#13) ≠ (live (rom128 1)).romBankIndex ∧ (0x7F#13).toNat < (live (rom128 1)).romBanks ∧
    (0x80#13) ≠ (live (rom128 1)).romBankIndex ∧ (live (rom128 1)).romBanks ≤ (0x80#13).toNat ∧
    (0x80#13).toNat = (0x80#8).toNat := by decide

/-- For `Mbc1RombSelectsTheCombinedBank`: both modes, and the value that is forced. -/
theorem test_witness_mbc1Romb :
    (let s := { live (rom128 1) with bankModeData := 0x20 }; s.phase = .live ∧ s.bankModeFlag = .rom ∧
      ((0x00#8 &&& 0x1F#8).setWidth 13 ||| s.bankModeData : BankNo) ≠ 0) ∧
    (let s := { live (rom128 1) with bankModeData := 0x20, bankModeFlag := .ram }; s.phase = .live ∧
      s.bankModeFlag ≠ .rom ∧ ((0xE0#8 &&& 0x1F#8).setWidth 13 : BankNo) = 0) := by decide

/-- For `Mbc1StashKeepsTheShiftedValue`, `Mbc1ModeTakesTheLowBit` and `Mbc1ModeWriteDoesNotReinterpretTheStash`: both ends
of the range, both low bits, a cartridge with bank 0x23. -/
theorem test_witness_mbc1Mode : (ctx .mbc1 .rom false).family = .mbc1 ∧ (0x600000#24) &&& 0xE00000 = 0x600000 ∧
    (0x7FFFFF#24) &&& 0xE00000 = 0x600000 ∧ (0xFE#8) &&& 1#8 = 0#8 ∧ (0xFF#8) &&& 1#8 = 1#8 ∧
    (live (rom128 1)).phase = .live ∧ (live (rom128 1)).bankModeFlag = .rom ∧ 0x23 < (live (rom128 1)).romBanks ∧
    (0x7F#13) = (0x7F#8 &&& 0x1F#8).setWidth 13 ||| { live (rom128 1) with bankModeData := 0x60 }.bankModeData ∧
    (0x7F#13) ≠ 0 ∧ (0x7F#13).toNat < (live (rom128 1)).romBanks := by decide

/-- For `LatchAndFamilyNoneWritesChangeNothing`, `PlaceholderWritesChangeNothing` and
`UnsupportedControllerWriteIsReported`: the ends of the ranges. -/
theorem test_witness_noEffect : Family.mbc5 ≠ .mbc2 ∧ Family.mbc5 ≠ .unsupported ∧
    (0x000000#24) &&& 0xE00000 = 0x000000 ∧ (0x1FFFFF#24) &&& 0xE00000 = 0x000000 ∧
    ((0x200000#24) &&& 0x800000 = 0x000000 ∧ (0x200000#24) &&& 0xE00000 ≠ 0x000000) ∧
    ((0x7FFFFF#24) &&& 0x800000 = 0x000000 ∧ (0x7FFFFF#24) &&& 0xE00000 ≠ 0x000000) ∧
    (live (rom2 5)).phase = .live ∧ (live (rom2 5)).family = .mbc2 ∧ (live (rom2 4)).family = .unsupported ∧
    (0x0000#16).toNat < 0x8000 ∧ (0x7FFF#16).toNat < 0x8000 := by decide

/-- For `RamBankSelectSwapsTheWindow`: the last bank, the first that does not exist, the no-op, the ends of the window and
of a slot. -/
theorem test_witness_ramBank : (live (rom128 0x19)).phase = .live ∧
    (15#8).toNat < (live (rom128 0x19)).config.maxRamBanks ∧ (live (rom128 0x19)).config.maxRamBanks ≤ (16#8).toNat ∧
    (0#8).toNat = (live (rom128 0x19)).ramBankIndex ∧ inRamWindow 0xA000 ∧ inRamWindow 0xBFFF ∧ ¬inRamWindow 0x9FFF ∧
    ¬inRamWindow 0xC000 ∧ 0x1FFF < 0x2000 := by unfold inRamWindow; decide

/-- For `SwapKeepsEveryRamBankContent` and `RamBankRangeFaultOnlyFromMbc1AndMbc5`. -/
theorem test_witness_ramBankResult : (∃ t, changeRamBank 15 (live (rom128 0x19)) = .next t) ∧
    (∃ t, changeRamBank 0 rtcLive = .next t) ∧
    (Instr.mbc1Ramb 0x4000 16).wf (live (rom128 1)).config = true ∧
    exec (.mbc1Ramb 0x4000 16) (live (rom128 1)) = .fault (.ramBankRange 16) ∧
    (Instr.mbc5Ramb 0x5FFF 255).wf (live (rom128 0x19)).config = true ∧
    exec (.mbc5Ramb 0x5FFF 255) (live (rom128 0x19)) = .fault (.ramBankRange 255) :=
  ⟨⟨_, rfl⟩, ⟨_, rfl⟩, by decide, rfl, by decide, rfl⟩

/-- For `RtcSelectSavesTheBankAndZeroesTheWindow` and `LeavingTheRtcViewRestoresTheBank`. -/
theorem test_witness_rtc : (live (rom128 0x13)).phase = .live ∧ (live (rom128 0x13)).rtcWindowActive = false ∧
    rtcLive.phase = .live ∧ rtcLive.rtcWindowActive = true ∧
    (let s := { live (rom128 0x13) with ramBankIndex := 4 }; s.ramBankIndex = (4#8).toNat ∧ (4#8).toNat ≤ 4) :=
  ⟨rfl, rfl, rfl, rfl, by decide⟩

/-- For `RamBankRoundTripRestoresThePattern`: away to the last bank, with a store into each end of the window. -/
theorem test_witness_roundTrip : (live (rom128 0x19)).phase = .live ∧ (live (rom128 0x19)).rtcWindowActive = false ∧
    (live (rom128 0x19)).ramBankIndex = (0#8).toNat ∧ (15#8) ≠ 0#8 ∧
    (0#8).toNat < (live (rom128 0x19)).config.maxRamBanks ∧ (15#8).toNat < (live (rom128 0x19)).config.maxRamBanks ∧
    ∀ w ∈ ([(0xA000, 1), (0xBFFF, 2)] : List (Addr × Byte)), inRamWindow w.1 := by
  refine ⟨rfl, rfl, rfl, by decide, by decide, by decide, ?_⟩
  simp [inRamWindow, ramWindowBase, ramBankSize]

/-- For `StoreWritesOneByte`: the ends of the range, and of the window. -/
theorem test_witness_store : ((0x800000#24) &&& 0x800000 = 0x800000 ∧ (wordAddr 0x800000).toNat < 0xFF80 ∧
      Config.default.notSpecial (wordAddr 0x800000) = true ∧ ¬inRamWindow (wordAddr 0x800000)) ∧
    ((0xFF7F00#24) &&& 0x800000 = 0x800000 ∧ (wordAddr 0xFF7F00).toNat < 0xFF80 ∧
      Config.default.notSpecial (wordAddr 0xFF7F00) = true ∧ ¬inRamWindow (wordAddr 0xFF7F00)) ∧
    State.reset.phase = .live ∧ Memory.wf State.reset.addressSpace ∧
    (Instr.storeW 0x8000 1).wf State.reset.config = true ∧ (Instr.storeW 0xFF7F 1).wf State.reset.config = true ∧
    (Instr.storeW 0xBFFF 1).wf State.reset.config = true ∧ inRamWindow 0xBFFF ∧ State.reset.rtcWindowActive = false := by
  unfold inRamWindow; decide

/-- For `SerialWriteStoresTheByte`, `TimerWriteClearsTheByte`, `InputWriteStoresTheComplementedButtons` and
`DmaWriteCopiesTheSource`: the special words, the first and the last byte of the copy, and a source that is the trigger. -/
theorem test_witness_special : State.reset.phase = .live ∧ Memory.wf State.reset.addressSpace ∧
    (0xFF0400#24) &&& 0xFFFF00 = addrPattern Config.default.addrTimerReset ∧
    (0xFF04FF#24) &&& 0xFFFF00 = addrPattern Config.default.addrTimerReset ∧
    (0xFF46C0#24) &&& 0xFFFF00 = addrPattern Config.default.addrDmaTrigger ∧
    (0xC000#16).toNat = (0xC0#8).toNat * 256 + 0 ∧ (0xC09F#16).toNat = (0xC0#8).toNat * 256 + 159 ∧
    (0xFF46#16).toNat = (0xFF#8).toNat * 256 + 0x46 ∧ 0xFF46 = State.reset.config.addrDmaTrigger := by decide

/-- For `DmaCornerCases`, each clause: the boundary values of the written byte, with a cartridge and in the RTC view. -/
theorem test_witness_dmaCorners : (live (rom128 0x13)).Inv ∧ rtcLive.Inv ∧
    (∃ t, exec (.dmaW 0xFE) (live (rom128 0x13)) = .next t) ∧ (∃ t, exec (.dmaW 0x3F) (live (rom128 0x13)) = .next t) ∧
    (∃ t, exec (.dmaW 0x40) (live (rom128 0x13)) = .next t) ∧ (∃ t, exec (.dmaW 0x7F) (live (rom128 0x13)) = .next t) ∧
    (∃ t, exec (.dmaW 0xA0) rtcLive = .next t) ∧ (∃ t, exec (.dmaW 0xBF) rtcLive = .next t) ∧
    (∃ t, exec (.dmaW 0xFF) (live (rom128 0x13)) = .next t) ∧ rtcLive.rtcWindowActive = true ∧
    (live (rom128 0x13)).cartridgeHandle = some (rom128 0x13) ∧ (live (rom128 0x13)).config.addrDmaTrigger = 0xFF46 :=
  ⟨test_inv_live, test_inv_rtcLive, ⟨_, rfl⟩, ⟨_, rfl⟩, ⟨_, rfl⟩, ⟨_, rfl⟩, ⟨_, rfl⟩, ⟨_, rfl⟩, ⟨_, rfl⟩, rfl, rfl, rfl⟩

/-- The slots a write hits, as a function. -/
theorem test_hit_exists (tbl : BlockTable) (a : Addr) (incl : Bool) :
    ∃ hit : Slot → Bool, ∀ i, hit i = true ↔
      (i.val + 0xFF80 < a.toNat ∨ (incl = true ∧ i.val + 0xFF80 = a.toNat)) ∧
      tbl[i].executionCount ≠ 0 ∧ a.toNat < tbl[i].endAddress.toNat :=
  ⟨fun i => decide ((i.val + 0xFF80 < a.toNat ∨ (incl = true ∧ i.val + 0xFF80 = a.toNat)) ∧
      tbl[i].executionCount ≠ 0 ∧ a.toNat < tbl[i].endAddress.toNat), fun _ => decide_eq_true_iff⟩

theorem test_witness_twoWrites :
    ∃ t u, exec (.hramW 0xFF80 0) State.reset = .next t ∧ exec (.hramW 0xFF80 1) t = .next u :=
  ⟨invalidationScan 0xFF80 (State.reset.memWrite 0xFF80 0), _, by
      rw [exec, execHramW, State.whenLive_live rfl], by
      rw [exec, execHramW, State.whenLive_live (by rw [invalidationScan_frame]; rfl)]⟩

/-- For `HighRamWriteStoresTheByte`, `ScanReleasesExactlyTheCoveringBlocks` and `ScanCornerCases`: both ends of high RAM;
two writes in a row; an entry that ends before it begins; the hits as a function. -/
theorem test_witness_scan : (0xFF8000#24) &&& 0xFF8000 = 0xFF8000 ∧ (0xFFFFFF#24) &&& 0xFF8000 = 0xFF8000 ∧
    State.reset.phase = .live ∧ Memory.wf State.reset.addressSpace ∧ 0xFF80 ≤ (0xFF80#16).toNat ∧
    0xFF80 ≤ (0xFFFF#16).toNat ∧ State.reset.config.invalScanInclusive = false ∧
    (∃ t u, exec (.hramW 0xFF80 0) State.reset = .next t ∧ exec (.hramW 0xFF80 1) t = .next u) ∧
    (∃ hit : Slot → Bool, ∀ i, hit i = true ↔
      (i.val + 0xFF80 < (0xFF99#16).toNat ∨
        (State.reset.config.invalScanInclusive = true ∧ i.val + 0xFF80 = (0xFF99#16).toNat)) ∧
      nested[i].executionCount ≠ 0 ∧ (0xFF99#16).toNat < nested[i].endAddress.toNat) ∧
    State.reset.blockTable[0x10].endAddress.toNat ≤ 0xFF80 + 0x10 :=
  ⟨by decide, by decide, rfl, by decide, by decide, by decide, rfl, test_witness_twoWrites,
    test_hit_exists nested 0xFF99 State.reset.config.invalScanInclusive, by decide +kernel⟩

/-- For `WrittenOutWordsDecode`, `DecodeOfEncodeGivesTheInstructionBack` and `DecodedInstructionIsSelectedAndEncodesBack`. -/
theorem test_witness_decode : ctx .mbc3 .rom true = ⟨Config.default, .mbc3, .rom, true⟩ ∧
    (Instr.rtcwinW 0xBFFF 1).wf Config.default = true ∧ (Instr.rtcwinW 0xBFFF 1).selectedIn (ctx .mbc3 .rom true) = true ∧
    (Instr.mbc1Ramb 0x5FFF 0xFF).wf Config.default = true ∧
    (Instr.mbc1Ramb 0x5FFF 0xFF).selectedIn (ctx .mbc1 .ram false) = true ∧
    (Instr.init (.cartridge (rom128 1))).wf Config.default = true ∧
    decode resetCtx (.init (.cartridge (rom128 1))) = .ok (.init (.cartridge (rom128 1))) :=
  ⟨rfl, by decide, by decide, by decide, by decide, by decide, rfl⟩

/-- For `IgnoredBitsHaveNoEffect`: values that differ in every ignored bit. -/
theorem test_witness_ignored : (0x03#8) &&& 0x1F#8 = 0xE3#8 &&& 0x1F#8 ∧ (0x05#8) &&& 0x7F#8 = 0x85#8 &&& 0x7F#8 ∧
    (0x01#8) &&& 0x01#8 = 0xFF#8 &&& 0x01#8 ∧ (0x20#8) &&& 0x30#8 = 0xEF#8 &&& 0x30#8 := by decide

/-- For the step statements: a request, each outside event, nothing asked for, a bare word. -/
theorem test_witness_step :
    (let s := { State.reset with inbox := [.request (.rd 0)] };
      s.inbox = .request (.rd 0) :: [] ∧ decode s.decodeCtx (.rd 0) = .ok (.read 0)) ∧
    State.reset.inbox = [] ∧
    { State.reset with inbox := [.setInputs ⟨1, true, true, true⟩] }.inbox = .setInputs ⟨1, true, true, true⟩ :: [] ∧
    { State.reset with inbox := [.setEntry 3 ⟨0xFF83, 0xFF90, 1⟩] }.inbox = .setEntry 3 ⟨0xFF83, 0xFF90, 1⟩ :: [] ∧
    requestOfBits 24 0xC00012 = .ok (.wr 0xC00012) ∧
    decode State.reset.decodeCtx (.wr 0xC00012) = .ok (.storeW 0xC000 0x12) ∧
    decodeTableWord 16 0xFFFF = some (.read 0xFFFF) := ⟨⟨rfl, rfl⟩, rfl, rfl, rfl, rfl, rfl, rfl⟩

/-- For `LiveOperationsComplete`: a command that is not INIT, and a RAM bank in range. -/
theorem test_witness_live : State.reset.phase = .live ∧ (Instr.mbc5Ramb 0x4000 15).wf State.reset.config = true ∧
    operationOf (.mbc5Ramb 0x4000 15) ≠ .init ∧ (15#8).toNat < State.reset.config.maxRamBanks := by decide

/-- For `EveryStepKeepsTheInvariant` and `NoStepChangesRomContent`. -/
theorem test_witness_invariantStep :
    (live (rom128 0x13)).Inv ∧ (∃ t, step (live (rom128 0x13)) = .next t) ∧
    (let s := { live (rom128 0x13) with inbox := [.request (.wr 0x200005)] };
      s.phase = .live ∧ s.cartridgeHandle = some (rom128 0x13) ∧ ∃ t, step s = .next t ∧ t.phase = .live) :=
  ⟨test_inv_live, ⟨_, rfl⟩, rfl, rfl, _, rfl, rfl⟩

/-- For the statements over every instruction: a next state of one that moves a bank, one that reports, one that enters the
view, one that leaves it, and INIT. -/
theorem test_witness_everyInstruction : (∃ t, exec (.mbc5Romb 0x2000 5) (live (rom128 0x19)) = .next t ∧
      t.romBankIndex ≠ (live (rom128 0x19)).romBankIndex) ∧
    (∃ t, exec (.mbc5Ramb 0x4000 5) (live (rom128 0x19)) = .next t ∧ t.ramBankIndex ≠ (live (rom128 0x19)).ramBankIndex) ∧
    (∃ t, exec (.mbc1Mode 0x6000 1) (live (rom128 1)) = .next t ∧ t.bankModeFlag ≠ (live (rom128 1)).bankModeFlag) ∧
    (∃ t, exec (.mbc1Stash 0x4000 1) (live (rom128 1)) = .next t ∧ t.bankModeData ≠ (live (rom128 1)).bankModeData) ∧
    (∃ t, exec (.mbc3Rtcsel 0x4000 5) (live (rom128 0x13)) = .next t ∧ t.rtcWindowActive = true) ∧
    (∃ t, exec (.mbc3Ramb 0x4000 0) rtcLive = .next t ∧ t.rtcWindowActive = false) ∧
    (∃ t, exec (.unsupW 0 0) (live (rom2 5)) = .next t ∧ t.sink ≠ (live (rom2 5)).sink) ∧
    (∃ t, exec (.init (.cartridge (rom2 1))) State.powerOn = .next t) :=
  ⟨⟨_, rfl, by decide⟩, ⟨_, rfl, by decide⟩, ⟨_, rfl, by decide⟩, ⟨_, rfl, by decide⟩, ⟨_, rfl, rfl⟩, ⟨_, rfl, rfl⟩,
    ⟨_, rfl, by decide⟩, ⟨_, rfl⟩⟩

/-- For `RomRegionWriteStoresNothing` and `WithoutCartridgeNoWriteReachesTheLowerHalf`: the ends of the ROM region, and a
write above it. -/
theorem test_witness_write : (0x0000#16).toNat < 0x8000 ∧ (0x7FFF#16).toNat < 0x8000 ∧
    (∃ t, exec (decodeWrite (live (rom128 0x19)).decodeCtx 0x7FFF 1) (live (rom128 0x19)) = .next t) ∧
    (∃ t, exec (decodeWrite (live (rom128 0x19)).decodeCtx 0x4000 1) (live (rom128 0x19)) = .next t) ∧
    (State.powerOn.started none .none []).Inv ∧ (State.powerOn.started none .none []).cartridgeHandle = none ∧
    (∃ t, exec (decodeWrite (State.powerOn.started none .none []).decodeCtx 0x2000 5) (State.powerOn.started none .none [])
      = .next t) ∧
    (∃ t, exec (decodeWrite (State.powerOn.started none .none []).decodeCtx 0x8000 5) (State.powerOn.started none .none [])
      = .next t) :=
  ⟨by decide, by decide, ⟨_, rfl⟩, ⟨_, rfl⟩,
    State.started_inv _ _ _ _ Memory.wf_nil (Memory.within_nil _ _) (fun _ h => by simp at h) (fun _ => rfl), rfl,
    ⟨_, rfl⟩, ⟨_, rfl⟩⟩

end Sys2Proof.Tests
end

section
/-! ## One step

`step` looks at the head of the inbox and nothing else of it: one equation per kind of event (spec/00_scope.md R12). -/

namespace Sys2Proof.Machine
variable {s : State} {rest : List Event}

theorem step_of_inbox_nil (h : s.inbox = []) : step s = .next s := by
  simp only [step, h]

theorem step_of_inbox_setInputs {lines : Inputs} (h : s.inbox = .setInputs lines :: rest) :
    step s = .next { s with inputs := lines, inbox := rest } := by
  simp only [step, h]

theorem step_of_inbox_setEntry {slot : Slot} {entry : BlockEntry} (h : s.inbox = .setEntry slot entry :: rest) :
    step s = .next { s with blockTable := s.blockTable.set slot entry, inbox := rest } := by
  simp only [step, h]

theorem step_of_inbox_request {req : Request} {i : Instr} (h : s.inbox = .request req :: rest)
    (hdec : decode s.decodeCtx req = .ok i) : step s = exec i (s.accept rest) := by
  simp only [step, h, hdec]

end Sys2Proof.Machine
end

section
/-! ## The step takes the oldest event of the inbox -/

namespace Sys2Proof.Machine

/-- Settles O42: the state `exec` is given is `State.accept`, the request taken and the earlier reply gone. -/
theorem stepPerformsTheDecodedRequest : Obligations.StepPerformsTheDecodedRequest := by
  intro s req rest i hinbox hdec
  exact step_of_inbox_request hinbox hdec

/-- Settles O43: one equation of `step` per event; a table with one entry set is read at that slot and at another. -/
theorem stepTakesOutsideEvents : Obligations.StepTakesOutsideEvents := by
  intro s
  refine ⟨step_of_inbox_nil, fun lines rest h => step_of_inbox_setInputs h, fun slot entry rest h => ?_⟩
  refine ⟨_, step_of_inbox_setEntry h, rfl, ?_, fun j hj => ?_⟩
  · exact Vector.getElem_set_self slot.isLt
  · exact Vector.getElem_set_ne slot.isLt j.isLt (Fin.val_ne_of_ne hj.symm)

end Sys2Proof.Machine
end

section
/-! ## What a request decodes to

A decoded instruction meets its operand ranges and stands in a context that selects it (spec/30_encoding.md R83, R84).
The proofs about a step use this instead of the decode itself. -/

namespace Sys2Proof
variable (x : DecodeCtx) {a : Addr} (v : Byte)

theorem decodeRomRegion_wf_selectedIn (ha : a.toNat < 0x8000) :
    (decodeRomRegion x a v).wf x.config = true ∧ (decodeRomRegion x a v).selectedIn x = true := by
  have h2 := addr_lt_ofNat a (n := 0x2000) (by decide)
  have h4 := addr_lt_ofNat a (n := 0x4000) (by decide)
  have h6 := addr_lt_ofNat a (n := 0x6000) (by decide)
  cases hf : x.family with
  | mbc2 | unsupported => simp [decodeRomRegion, hf, Instr.wf, Instr.selectedIn, inRange_iff, ha]
  | none | mbc5 =>
    simp only [decodeRomRegion, hf]
    split_ifs <;> simp_all [Instr.wf, Instr.selectedIn, inRange_iff]
  | mbc1 =>
    cases hm : x.bankModeFlag with
    | rom | ram =>
      simp only [decodeRomRegion, hf, hm]
      split_ifs <;> simp_all [Instr.wf, Instr.selectedIn, inRange_iff]
  | mbc3 =>
    simp only [decodeRomRegion, hf, BitVec.le_def]
    split_ifs <;> simp_all [Instr.wf, Instr.selectedIn, inRange_iff]

/-- The row of STORE.W (R84): an address below high RAM that no special register has, outside the RTC view. -/
theorem storeW_wf_iff (c : Config) : (Instr.storeW a v).wf c = true ↔
    (0x8000 ≤ a.toNat ∧ a.toNat < 0xFF80) ∧ c.notSpecial a = true := by
  rw [Instr.wf, Bool.and_eq_true, inRange_iff]

theorem storeW_selectedIn_iff : (Instr.storeW a v).selectedIn x = true ↔
    ((0xA000 ≤ a.toNat ∧ a.toNat < 0xC000) → ¬x.rtcWindowActive = true) := by
  rw [Instr.selectedIn, Bool.not_eq_true', ← Bool.not_eq_true, Bool.and_eq_true, inRange_iff, not_and]

theorem decodeUpper_wf_selectedIn (ha : 0x8000 ≤ a.toNat) :
    (decodeUpper x a v).wf x.config = true ∧ (decodeUpper x a v).selectedIn x = true := by
  have hA := ofNat_le_addr a (n := 0xA000) (by decide)
  have hC := addr_lt_ofNat a (n := 0xC000) (by decide)
  have hF := ofNat_le_addr a (n := 0xFF80) (by decide)
  unfold decodeUpper
  split_ifs with htimer hinput hserial hdma hrtc hhram
  iterate 4 exact ⟨rfl, rfl⟩
  · exact ⟨(inRange_iff _ _ a).2 ⟨hA.1 hrtc.1, hC.1 hrtc.2.1⟩, hrtc.2.2⟩
  · exact ⟨(inRange_iff _ _ a).2 ⟨hF.1 hhram, a.isLt⟩, rfl⟩
  · refine ⟨(storeW_wf_iff v _).2 ⟨⟨ha, not_le.1 (mt hF.2 hhram)⟩, ?_⟩, (storeW_selectedIn_iff x v).2 ?_⟩
    · exact (Config.notSpecial_iff _ a).2 ⟨hinput, hserial, htimer, hdma⟩
    · exact fun hin hview => hrtc ⟨hA.2 hin.1, hC.2 hin.2, hview⟩

theorem decodeWrite_wf_selectedIn (a : Addr) :
    (decodeWrite x a v).wf x.config = true ∧ (decodeWrite x a v).selectedIn x = true := by
  rcases Nat.lt_or_ge a.toNat 0x8000 with ha | ha
  · rw [decodeWrite_lower x v ha]; exact decodeRomRegion_wf_selectedIn x v ha
  · rw [decodeWrite_upper x v ha]; exact decodeUpper_wf_selectedIn x v ha

variable {x}

/-- INIT is decoded from a byte string alone. -/
theorem decodeInit_ok {src : Source} {i : Instr} (h : decodeInit src = .ok i) : src.wf = true ∧ i = .init src := by
  unfold decodeInit at h
  split at h
  case isTrue hwf => exact ⟨hwf, (Except.ok.inj h).symm⟩
  case isFalse => cases src <;> exact absurd h nofun

/-- What a request decodes to is well formed and selected in that context. -/
theorem wf_selectedIn_of_decode {req : Request} {i : Instr} (h : decode x req = .ok i) :
    i.wf x.config = true ∧ i.selectedIn x = true := by
  cases req with
  | init src => obtain ⟨hwf, rfl⟩ := decodeInit_ok h; exact ⟨hwf, rfl⟩
  | wr t => cases h; exact decodeWrite_wf_selectedIn x _ _
  | rd _ | free | dump => cases h; exact ⟨rfl, rfl⟩

end Sys2Proof
end

section
/-! ## Which states meet the invariant

The two states that have no cartridge meet it outright; each effect of an instruction that its context selects keeps it;
INIT and FREE answer states that meet it; so does every step (spec/10_state.md R32, R33). -/

namespace Sys2Proof.Machine
variable {s t : State} {i : Instr}

/-- The state INIT NONE returns, with no preload. -/
theorem State.started_anonymous_inv (s : State) : (s.started none .none []).Inv :=
  State.started_inv s none .none [] Memory.wf_nil (Memory.within_nil _ _) nofun fun _ => rfl

/-- With the nine items gone the invariant holds in every phase (R38). -/
theorem State.withoutItems_inv (s : State) (p : Phase) (r : Reply) :
    ({ s.withoutItems with phase := p, reply := r } : State).Inv :=
  { State.started_anonymous_inv s with itemsOnlyLive := fun _ => rfl }

/-- The interfaces to the outside take no part in the invariant. -/
theorem State.Inv.with_outside (h : s.Inv) {table : BlockTable} {lines : Inputs} {inbox : List Event} {reply : Reply}
    {sink : List Diag} {calls : List Slot} :
    ({ s with blockTable := table, inputs := lines, inbox := inbox, reply := reply, sink := sink,
              releaseCalls := calls } : State).Inv :=
  h.congr rfl rfl rfl rfl rfl rfl rfl rfl rfl rfl rfl

/-! ### The commands that need the controller's family -/

theorem stashOf_lowBits (v : Byte) : stashOf v &&& 0x1F = 0 := by
  unfold stashOf; revert v; decide

/-- A ROM-bank select belongs to a family that switches banks, and bank 0 can be asked for in MBC5 alone (R25). -/
theorem family_of_selectsRomBank (sel : selectsRomBank i) (hsel : i.selectedIn s.decodeCtx = true) :
    ¬s.switchesNoBank ∧ (s.family = .mbc1 ∨ s.family = .mbc3 → ∀ a v, i ≠ .mbc5Romb a v) := by
  obtain ⟨a, v, rfl | rfl | rfl⟩ := sel <;>
    simp_all [Instr.selectedIn, State.decodeCtx, State.switchesNoBank, State.family]

theorem not_switchesNoBank_of_selectsRamBank (sel : selectsRamBank i) (hsel : i.selectedIn s.decodeCtx = true) :
    ¬s.switchesNoBank := by
  obtain ⟨a, v, rfl | rfl | rfl⟩ := sel <;>
    simp_all [Instr.selectedIn, State.decodeCtx, State.switchesNoBank, State.family]

theorem State.Inv.after_changeRomBank (h : s.Inv) (hl : s.phase = .live) (hns : ¬s.switchesNoBank) {b : BankNo}
    (hb : s.family = .mbc1 ∨ s.family = .mbc3 → b ≠ 0) : (changeRomBank b s).Inv := by
  rcases changeRomBank_cases b s with ⟨_, e⟩ | ⟨_, hbank, e⟩ | ⟨_, _, e⟩ <;> rw [e]
  · exact h
  · exact h.after_romBank hl hns hbank hb
  · exact h.with_outside

/-! ### The stores -/

/-- A store from 0x8000 on, outside the RAM window, to another address than the timer's. -/
theorem State.Inv.after_memWrite_plain (h : s.Inv) (hl : s.phase = .live) {a : Addr} (v : Byte)
    (ha : 0x8000 ≤ a.toNat) (ht : a ≠ s.config.addrTimerReset) (hw : ¬inRamWindow a) : (s.memWrite a v).Inv :=
  h.after_memWrite hl ha (fun e => absurd e ht) fun _ => hw

theorem State.Inv.after_storeW (h : s.Inv) (hl : s.phase = .live) {a : Addr} {v : Byte}
    (hwf : (Instr.storeW a v).wf s.config = true) (hsel : (Instr.storeW a v).selectedIn s.decodeCtx = true) :
    (s.memWrite a v).Inv := by
  obtain ⟨⟨ha, -⟩, hplain⟩ := (storeW_wf_iff v _).1 hwf
  obtain ⟨-, -, htimer, -⟩ := (Config.notSpecial_iff _ a).1 hplain
  exact h.after_memWrite hl ha (fun e => absurd e htimer) fun hview hwin =>
    (storeW_selectedIn_iff _ v).1 hsel hwin hview

theorem State.Inv.after_hramW (h : s.Inv) (hl : s.phase = .live) {a : Addr} (v : Byte) (ha : 0xFF80 ≤ a.toNat) :
    (invalidationScan a (s.memWrite a v)).Inv := by
  have htimer : a ≠ s.config.addrTimerReset := fun e => by
    have := (Config.timer_placed s.config).2.1
    rw [← e] at this; omega
  have hwin : ¬inRamWindow a := fun hw => by
    have := hw.2
    simp only [ramWindowBase, ramBankSize] at this; omega
  rw [invalidationScan_frame]
  exact (h.after_memWrite_plain hl v (by omega) htimer hwin).with_outside

/-! ### Every instruction -/

/-- The effect of an instruction that the state's context selects keeps the invariant. -/
theorem Effect.keeps_inv (he : Effect s t i) (h : s.Inv) (hl : s.phase = .live) (hwf : i.wf s.config = true)
    (hsel : i.selectedIn s.decodeCtx = true) : t.Inv := by
  obtain ⟨-, hinput, -, hserial, -, hdma⟩ := Config.specials_distinct s.config
  cases he with
  | unchanged _ same => exact same ▸ h
  | replied _ _ ans => exact ans ▸ h.with_outside
  | reported _ _ ev => exact ev ▸ h.with_outside
  | romBank b sel forced chg =>
    obtain ⟨hns, hmbc5⟩ := family_of_selectsRomBank sel hsel
    exact chg ▸ h.after_changeRomBank hl hns fun hf => forced (hmbc5 hf)
  | stashed a v upd =>
    simp only [Instr.selectedIn, Bool.and_eq_true, beq_iff_eq] at hsel
    exact upd ▸ h.after_auxiliary hl hsel.1 s.bankModeFlag _ (stashOf_lowBits v)
  | mode a v upd => exact upd ▸ h.after_auxiliary hl (beq_iff_eq.1 hsel) _ s.bankModeData h.stashLowBitsZero
  | ramBank v sel inRange swap =>
    exact swap ▸ h.after_swapRamBank hl (not_switchesNoBank_of_selectsRamBank sel hsel) inRange
  | rtc a v view => exact view ▸ h.after_accessRtc hl (beq_iff_eq.1 hsel)
  | stored a w which st =>
    subst st
    rcases which with ⟨v, rfl⟩ | ⟨rfl, rfl, -⟩ | ⟨rfl, -⟩ | ⟨rfl, -⟩
    · exact h.after_storeW hl hwf hsel
    · obtain ⟨hup, -, hwin, -⟩ := Config.timer_placed s.config
      exact h.after_memWrite hl hup (fun _ => rfl) fun _ => hwin
    · obtain ⟨hup, -, hwin, -⟩ := Config.input_placed s.config
      exact h.after_memWrite_plain hl w hup hinput hwin
    · obtain ⟨hup, -, hwin, -⟩ := Config.serial_placed s.config
      exact h.after_memWrite_plain hl w hup hserial hwin
  | copied v cp =>
    obtain ⟨hup, -, hwin, -⟩ := Config.dma_placed s.config
    exact cp ▸ (h.after_memWrite_plain hl v hup hdma.symm hwin).after_copy hl _
  | scanned a v sc => exact sc ▸ h.after_hramW hl v ((inRange_iff _ _ a).1 hwf).1

theorem State.Inv.after_init (h : s.Inv) {src : Source} (hwf : src.wf = true) (he : exec (.init src) s = .next t) :
    t.Inv := by
  obtain ⟨-, ⟨e, rfl⟩ | ⟨img, rfl, hlen, rfl⟩ | ⟨preload, rfl, rfl⟩⟩ := exec_init_cases he
  · exact h.with_outside
  · refine State.started_inv s _ _ _ Memory.wf_nil (Memory.within_nil _ _) (fun img' himg => ?_) nofun
    obtain rfl := Option.some.inj himg
    exact ⟨hwf, hlen, rfl, rfl⟩
  · simp only [Source.wf, Bool.and_eq_true, decide_eq_true_eq] at hwf
    exact State.started_inv s _ _ _ hwf.1 hwf.2 nofun fun _ => rfl

/-- Every well-formed instruction that the state's context selects keeps the invariant. -/
theorem State.Inv.after_exec (h : s.Inv) (hwf : i.wf s.config = true) (hsel : i.selectedIn s.decodeCtx = true)
    (he : exec i s = .next t) : t.Inv := by
  by_cases hinit : operationOf i = .init
  · obtain ⟨src, rfl⟩ := eq_init_of_operationOf hinit
    exact h.after_init hwf he
  by_cases hfree : operationOf i = .free
  · obtain rfl := eq_free_of_operationOf hfree
    obtain ⟨-, r, rfl⟩ := exec_free_cases he
    exact State.withoutItems_inv s .freed r
  · obtain ⟨hl, effect⟩ := exec_effect hinit hfree he
    exact effect.keeps_inv h hl hwf hsel

/-- A step that takes a request and answers performed what the request decodes to. -/
theorem decode_of_step_eq_next {req : Request} {rest : List Event} (hin : s.inbox = .request req :: rest)
    (hs : step s = .next t) : ∃ i, decode s.decodeCtx req = .ok i ∧ exec i (s.accept rest) = .next t := by
  cases hdec : decode s.decodeCtx req with
  | ok i => exact ⟨i, rfl, step_of_inbox_request hin hdec ▸ hs⟩
  | error why => simp [step, hin, hdec] at hs

/-- Settles O47: an outside event touches nothing the invariant reads; a request performs an instruction its context
selects, and each effect of such an instruction keeps the invariant. -/
theorem everyStepKeepsTheInvariant : Obligations.EveryStepKeepsTheInvariant := by
  intro s t h hs
  cases hin : s.inbox with
  | nil => cases (step_of_inbox_nil hin).symm.trans hs; exact h
  | cons event rest =>
    cases event with
    | setInputs lines =>
      cases (step_of_inbox_setInputs hin).symm.trans hs
      exact h.with_outside
    | setEntry slot entry =>
      cases (step_of_inbox_setEntry hin).symm.trans hs
      exact h.with_outside
    | request req =>
      obtain ⟨i, hdec, he⟩ := decode_of_step_eq_next hin hs
      obtain ⟨hwf, hsel⟩ := wf_selectedIn_of_decode hdec
      have accepted : (s.accept rest).Inv := h.with_outside
      exact accepted.after_exec hwf hsel he

end Sys2Proof.Machine
end

section
/-! ## Reset, and the two ways INIT succeeds (spec/10_state.md R39) -/

namespace Sys2Proof.Machine
variable {s : State}

/-- INIT NONE right after power-on returns the reset state. -/
theorem State.powerOn_started : State.powerOn.started none .none [] = State.reset := rfl

theorem exec_init_cartridge {img : Image} (hp : s.phase = .uninit) (hopen : s.inputs.openOk = true)
    (hmap : s.inputs.mapOk = true) (hlen : 0x8000 ≤ img.len) : exec (.init (.cartridge img)) s =
      .next (s.started (some img) (kindOfCode s.config (imageByte img 0x147)) []) := by
  have hshort : ¬img.len < 0x8000 := by omega
  simp only [exec, execInit, State.initialise, initCartridge, hp, hopen, hmap, hshort, if_true, if_false,
    Bool.true_eq_false]

theorem exec_init_anonymous (preload : Memory) (hp : s.phase = .uninit) (hmap : s.inputs.mapOk = true) :
    exec (.init (.anonymous preload)) s = .next (s.started none .none preload) := by
  simp only [exec, execInit, State.initialise, initAnonymous, hp, hmap, if_true, if_false, Bool.true_eq_false]

/-- With bank 1 selected the ROM region shows the first 32 KiB of the image. -/
theorem romByte_bank_one (img : Image) (a : Addr) : romByte img 1 a = imageByte img a.toNat := by
  have base : (1 : BankNo).toNat * romBankSize = romBankSize := rfl
  unfold romByte
  split
  case isTrue => rfl
  case isFalse h => rw [base, Nat.add_sub_cancel' (not_lt.1 h)]

theorem State.started_readByte_lower (img : Image) (kind : Kind) (lower : Memory) {a : Addr} (ha : a.toNat < 0x8000) :
    (s.started (some img) kind lower).readByte a = imageByte img a.toNat := by
  rw [State.readByte_cartridge (img := img) rfl, if_pos ha]; exact romByte_bank_one img a

/-- Settles O1: an accepted INIT that meets no error returns `State.started`, whose fields are the table's. -/
theorem initGivesTheStatedResetTable : Obligations.InitGivesTheStatedResetTable := by
  refine ⟨fun s img hp hopen hmap hlen => ⟨_, exec_init_cartridge hp hopen hmap hlen, ?_, ?_, ?_⟩,
    fun s hp hmap => ⟨_, exec_init_anonymous [] hp hmap, ?_, ?_⟩⟩
  · exact fun a ha => State.started_readByte_lower img _ _ ha
  · exact fun a ha => (State.readByte_upper _ ha).trans (Memory.read_nil _)
  · exact ⟨rfl, rfl, rfl, fun _ _ => rfl, rfl, rfl, rfl, rfl, rfl, rfl, rfl, rfl, rfl, rfl, rfl, rfl⟩
  · exact fun a => (State.readByte_anonymous rfl a).trans (Memory.read_nil _)
  · exact ⟨rfl, rfl, rfl, fun _ _ => rfl, rfl, rfl, rfl, rfl, rfl, rfl, rfl, rfl, rfl, rfl, rfl, rfl⟩

/-- Settles O2: INIT NONE from power-on is accepted and meets no error; every byte of the empty listing reads zero. -/
theorem resetIsWhatInitNoneAnswers : Obligations.ResetIsWhatInitNoneAnswers :=
  ⟨exec_init_anonymous [] rfl rfl, rfl, fun a => (State.readByte_anonymous rfl a).trans (Memory.read_nil _),
    rfl, rfl, rfl, rfl⟩

/-- Settles O46: reset is what INIT NONE returns, and before INIT the nine items are gone. -/
theorem resetMeetsTheInvariant : Obligations.ResetMeetsTheInvariant :=
  ⟨State.powerOn_started ▸ State.started_anonymous_inv State.powerOn,
    State.withoutItems_inv State.reset .uninit .none⟩

end Sys2Proof.Machine
end

section
/-! ## Phases: which are accepted and which are left (spec/10_state.md R38) -/

namespace Sys2Proof.Machine
variable {s t : State} {i : Instr}

theorem exec_init_of_not_uninit (src : Source) (hp : s.phase ≠ .uninit) :
    exec (.init src) s = .fault (.lifecycle .init s.phase) := if_neg hp

theorem exec_init_of_uninit (src : Source) (hp : s.phase = .uninit) :
    exec (.init src) s = .next (s.initialise src) := if_pos hp

theorem changeRamBank_ne_lifecycle (v : Byte) (s : State) (op : OpName) (p : Phase) :
    changeRamBank v s ≠ .fault (.lifecycle op p) := by
  rcases changeRamBank_cases v s with ⟨_, e⟩ | ⟨_, _, _, e⟩ | ⟨_, _, e⟩ <;> simp [e]

/-- Every instruction but INIT is the lifecycle check before a continuation that raises no Lifecycle fault. -/
theorem exec_eq_whenLive (hinit : operationOf i ≠ .init) : ∃ next : State → Result,
    (∀ s, exec i s = s.whenLive (operationOf i) next) ∧ ∀ s op p, next s ≠ .fault (.lifecycle op p) := by
  cases i with
  | init src => exact absurd rfl hinit
  | mbc1Ramb a v | mbc3Ramb a v | mbc5Ramb a v => exact ⟨_, fun _ => rfl, changeRamBank_ne_lifecycle v⟩
  | _ => exact ⟨_, fun _ => rfl, fun _ _ _ => nofun⟩

theorem exec_of_not_live (hinit : operationOf i ≠ .init) (hp : s.phase ≠ .live) :
    exec i s = .fault (.lifecycle (operationOf i) s.phase) := by
  obtain ⟨next, he, -⟩ := exec_eq_whenLive hinit
  rw [he, State.whenLive_not_live hp]

/-- In phase LIVE no operation but INIT raises a Lifecycle fault. -/
theorem phase_ne_live_of_lifecycle {op : OpName} {p : Phase} (hinit : operationOf i ≠ .init)
    (hf : exec i s = .fault (.lifecycle op p)) : s.phase ≠ .live := by
  obtain ⟨next, he, hnext⟩ := exec_eq_whenLive hinit
  intro hl
  rw [he, State.whenLive_live hl] at hf
  exact hnext s op p hf

/-- A Lifecycle fault names the operation and the phase, and arises in no phase that accepts the operation. -/
theorem exec_lifecycle {op : OpName} {p : Phase} (hf : exec i s = .fault (.lifecycle op p)) :
    op = operationOf i ∧ p = s.phase ∧ (op = .init ∧ p ≠ .uninit ∨ op ≠ .init ∧ p ≠ .live) := by
  by_cases hinit : operationOf i = .init
  · obtain ⟨src, rfl⟩ := eq_init_of_operationOf hinit
    have hp : s.phase ≠ .uninit := fun hp => by rw [exec_init_of_uninit src hp] at hf; cases hf
    cases (exec_init_of_not_uninit src hp).symm.trans hf
    exact ⟨rfl, rfl, .inl ⟨rfl, hp⟩⟩
  · have hp := phase_ne_live_of_lifecycle hinit hf
    cases (exec_of_not_live hinit hp).symm.trans hf
    exact ⟨rfl, rfl, .inr ⟨hinit, hp⟩⟩

theorem exec_init_phase {src : Source} (he : exec (.init src) s = .next t) :
    (t.reply = .initialised ∧ t.phase = .live) ∨ (∃ e, t.reply = .error (.initError e)) ∧ t.phase = .uninit := by
  obtain ⟨hp, ⟨e, rfl⟩ | ⟨img, -, -, rfl⟩ | ⟨preload, -, rfl⟩⟩ := exec_init_cases he
  · exact .inr ⟨⟨e, rfl⟩, hp⟩
  · exact .inl ⟨rfl, rfl⟩
  · exact .inl ⟨rfl, rfl⟩

/-- Settles O5: INIT tests for UNINIT, every other operation is the lifecycle check before its effect. -/
theorem operationsOutOfPhaseFault : Obligations.OperationsOutOfPhaseFault := by
  intro i s
  refine ⟨fun hinit hp => ?_, exec_of_not_live, fun op p => exec_lifecycle,
    fun t he => ⟨fun hinit => ?_, fun hfree => ?_, fun hinit hfree => ?_⟩⟩
  · obtain ⟨src, rfl⟩ := eq_init_of_operationOf hinit
    exact exec_init_of_not_uninit src hp
  · obtain ⟨src, rfl⟩ := eq_init_of_operationOf hinit
    exact exec_init_phase he
  · obtain rfl := eq_free_of_operationOf hfree
    obtain ⟨-, r, rfl⟩ := exec_free_cases he
    rfl
  · obtain ⟨hl, effect⟩ := exec_effect hinit hfree he
    obtain ⟨-, -, -, -, -, hphase⟩ := effect.keeps
    exact hphase.trans hl

/-- Settles O51: every effect keeps the six fields; INIT and FREE keep the first three. -/
theorem kindAndCartridgeAreFixedForLife : Obligations.KindAndCartridgeAreFixedForLife := by
  intro i s t he
  by_cases hinit : operationOf i = .init
  · obtain ⟨src, rfl⟩ := eq_init_of_operationOf hinit
    obtain ⟨-, ⟨e, rfl⟩ | ⟨img, -, -, rfl⟩ | ⟨preload, -, rfl⟩⟩ := exec_init_cases he <;>
      exact ⟨rfl, rfl, rfl, fun hn => absurd hinit hn⟩
  by_cases hfree : operationOf i = .free
  · obtain rfl := eq_free_of_operationOf hfree
    obtain ⟨-, r, rfl⟩ := exec_free_cases he
    exact ⟨rfl, rfl, rfl, fun _ hn => absurd rfl hn⟩
  · obtain ⟨hconfig, hinputs, hinbox, hkind, hcart, hphase⟩ := (exec_effect hinit hfree he).2.keeps
    exact ⟨hconfig, hinputs, hinbox, fun _ _ => ⟨hkind, hcart, hphase⟩⟩

end Sys2Proof.Machine
end

section
/-! ## What each effect leaves in the bank registers (spec/10_state.md R25 to R29) -/

namespace Sys2Proof.Machine
variable {s t : State} {i : Instr}

section
variable (s : State) (b : BankNo) (req : Nat) (a : Addr)

@[simp] theorem changeRomBank_ramBankIndex : (changeRomBank b s).ramBankIndex = s.ramBankIndex := by
  rw [changeRomBank_frame]
@[simp] theorem changeRomBank_bankModeFlag : (changeRomBank b s).bankModeFlag = s.bankModeFlag := by
  rw [changeRomBank_frame]
@[simp] theorem changeRomBank_bankModeData : (changeRomBank b s).bankModeData = s.bankModeData := by
  rw [changeRomBank_frame]
@[simp] theorem changeRomBank_rtcWindowActive : (changeRomBank b s).rtcWindowActive = s.rtcWindowActive := by
  rw [changeRomBank_frame]
@[simp] theorem changeRomBank_ramBankStore : (changeRomBank b s).ramBankStore = s.ramBankStore := by
  rw [changeRomBank_frame]

@[simp] theorem swapRamBank_romBankIndex : (swapRamBank req s).romBankIndex = s.romBankIndex := by
  rw [swapRamBank_eq]
@[simp] theorem swapRamBank_bankModeFlag : (swapRamBank req s).bankModeFlag = s.bankModeFlag := by
  rw [swapRamBank_eq]
@[simp] theorem swapRamBank_bankModeData : (swapRamBank req s).bankModeData = s.bankModeData := by
  rw [swapRamBank_eq]
@[simp] theorem swapRamBank_rtcWindowActive : (swapRamBank req s).rtcWindowActive = false := rfl

@[simp] theorem accessRtc_romBankIndex : (accessRtc s).romBankIndex = s.romBankIndex := by
  rw [accessRtc_eq]
@[simp] theorem accessRtc_ramBankIndex : (accessRtc s).ramBankIndex = s.ramBankIndex := by
  rw [accessRtc_eq]
@[simp] theorem accessRtc_bankModeFlag : (accessRtc s).bankModeFlag = s.bankModeFlag := by
  rw [accessRtc_eq]
@[simp] theorem accessRtc_bankModeData : (accessRtc s).bankModeData = s.bankModeData := by
  rw [accessRtc_eq]
@[simp] theorem accessRtc_rtcWindowActive : (accessRtc s).rtcWindowActive = true := rfl

@[simp] theorem invalidationScan_romBankIndex : (invalidationScan a s).romBankIndex = s.romBankIndex := by
  rw [invalidationScan_frame]
@[simp] theorem invalidationScan_ramBankIndex : (invalidationScan a s).ramBankIndex = s.ramBankIndex := by
  rw [invalidationScan_frame]
@[simp] theorem invalidationScan_bankModeFlag : (invalidationScan a s).bankModeFlag = s.bankModeFlag := by
  rw [invalidationScan_frame]
@[simp] theorem invalidationScan_bankModeData : (invalidationScan a s).bankModeData = s.bankModeData := by
  rw [invalidationScan_frame]
@[simp] theorem invalidationScan_rtcWindowActive : (invalidationScan a s).rtcWindowActive = s.rtcWindowActive := by
  rw [invalidationScan_frame]
@[simp] theorem invalidationScan_ramBankStore : (invalidationScan a s).ramBankStore = s.ramBankStore := by
  rw [invalidationScan_frame]

end

theorem Effect.selectsRomBank_of_ne (h : Effect s t i) (hne : t.romBankIndex ≠ s.romBankIndex) : selectsRomBank i := by
  cases h with
  | romBank _ sel _ _ => exact sel
  | _ => subst_vars; simp at hne

theorem Effect.selectsRamBank_of_ne (h : Effect s t i) (hne : t.ramBankIndex ≠ s.ramBankIndex) : selectsRamBank i := by
  cases h with
  | ramBank _ sel _ _ => exact sel
  | _ => subst_vars; simp at hne

theorem Effect.mode_of_ne (h : Effect s t i) (hne : t.bankModeFlag ≠ s.bankModeFlag) : ∃ a v, i = .mbc1Mode a v := by
  cases h with
  | mode a v _ => exact ⟨a, v, rfl⟩
  | _ => subst_vars; simp at hne

theorem Effect.stash_of_ne (h : Effect s t i) (hne : t.bankModeData ≠ s.bankModeData) : ∃ a v, i = .mbc1Stash a v := by
  cases h with
  | stashed a v _ => exact ⟨a, v, rfl⟩
  | _ => subst_vars; simp at hne

theorem Effect.rtcsel_of_view_on (h : Effect s t i) (ht : t.rtcWindowActive = true) (hs : s.rtcWindowActive = false) :
    ∃ a v, i = .mbc3Rtcsel a v := by
  cases h with
  | rtc a v _ => exact ⟨a, v, rfl⟩
  | _ => subst_vars; simp [hs] at ht

theorem Effect.selectsRamBank_of_view_off (h : Effect s t i) (ht : t.rtcWindowActive = false)
    (hs : s.rtcWindowActive = true) : selectsRamBank i := by
  cases h with
  | ramBank _ sel _ _ => exact sel
  | _ => subst_vars; simp [hs] at ht

theorem Effect.select_of_store_ne (h : Effect s t i) (hne : t.ramBankStore ≠ s.ramBankStore) :
    selectsRamBank i ∨ ∃ a v, i = .mbc3Rtcsel a v := by
  cases h with
  | ramBank _ sel _ _ => exact .inl sel
  | rtc a v _ => exact .inr ⟨a, v, rfl⟩
  | _ => subst_vars; simp at hne

/-- Settles O50: an instruction other than INIT and FREE has one effect, and each register is moved by one or two of the
effects. -/
theorem bankRegistersMoveOnlyByTheirCommands : Obligations.BankRegistersMoveOnlyByTheirCommands := by
  intro i s t he hinit hfree
  obtain ⟨-, effect⟩ := exec_effect hinit hfree he
  exact ⟨effect.selectsRomBank_of_ne, effect.selectsRamBank_of_ne, effect.mode_of_ne, effect.stash_of_ne,
    effect.rtcsel_of_view_on, effect.selectsRamBank_of_view_off, effect.select_of_store_ne⟩

end Sys2Proof.Machine
end

section
/-! ## What the ROM region shows, and what INIT NONE shows (spec/20_memory.md R60, R61, R64) -/

namespace Sys2Proof.Machine
variable {s t : State} {img : Image} {a : Addr}

/-- The lower half of the ROM region shows bank 0. -/
theorem State.readByte_lower_rom (hc : s.cartridgeHandle = some img) (ha : a.toNat < 0x4000) :
    s.readByte a = imageByte img a.toNat := by
  rw [State.readByte_cartridge hc, if_pos (by omega)]
  exact if_pos ha

/-- The upper half of the ROM region shows the selected bank. -/
theorem State.readByte_rom_window (hc : s.cartridgeHandle = some img) (hlo : 0x4000 ≤ a.toNat)
    (hhi : a.toNat < 0x8000) :
    s.readByte a = imageByte img (s.romBankIndex.toNat * 0x4000 + (a.toNat - 0x4000)) := by
  rw [State.readByte_cartridge hc, if_pos hhi]
  exact if_neg (not_lt.2 hlo)

/-- The selected bank lies whole inside the image (R33 (a)). -/
theorem State.Inv.rom_offset_lt (h : s.Inv) (hc : s.cartridgeHandle = some img) {o : Nat} (ho : o < 0x4000) :
    s.romBankIndex.toNat * 0x4000 + o < img.len := by
  obtain ⟨-, -, -, hbank⟩ := h.cartridge img hc
  have banks : s.romBanks = img.len / 0x4000 := by rw [State.romBanks, hc]
  rw [banks] at hbank
  omega

/-- Settles O11: a read of the ROM region is the image's byte, in a bank that the invariant places inside the image. -/
theorem romRegionShowsTheImage : Obligations.RomRegionShowsTheImage := by
  intro s img a hc ha
  exact ⟨State.readByte_lower_rom hc, fun hlo =>
    ⟨State.readByte_rom_window hc hlo ha, fun h => h.rom_offset_lt hc (by omega)⟩⟩

/-- An instruction that starts and ends in phase LIVE keeps the cartridge: INIT starts elsewhere, FREE ends elsewhere. -/
theorem exec_keeps_cartridge {i : Instr} (hl : s.phase = .live) (he : exec i s = .next t) (ht : t.phase = .live) :
    t.cartridgeHandle = s.cartridgeHandle := by
  by_cases hinit : operationOf i = .init
  · obtain ⟨src, rfl⟩ := eq_init_of_operationOf hinit
    obtain ⟨hp, -⟩ := exec_init_cases he
    cases hl.symm.trans hp
  by_cases hfree : operationOf i = .free
  · obtain rfl := eq_free_of_operationOf hfree
    obtain ⟨-, r, rfl⟩ := exec_free_cases he
    cases ht
  · obtain ⟨-, -, -, -, hcart, -⟩ := (exec_effect hinit hfree he).2.keeps
    exact hcart

/-- A step that starts and ends in phase LIVE keeps the cartridge. -/
theorem step_keeps_cartridge (hl : s.phase = .live) (hs : step s = .next t) (ht : t.phase = .live) :
    t.cartridgeHandle = s.cartridgeHandle := by
  cases hin : s.inbox with
  | nil => cases (step_of_inbox_nil hin).symm.trans hs; rfl
  | cons event rest =>
    cases event with
    | setInputs lines => cases (step_of_inbox_setInputs hin).symm.trans hs; rfl
    | setEntry slot entry => cases (step_of_inbox_setEntry hin).symm.trans hs; rfl
    | request req =>
      obtain ⟨i, -, he⟩ := decode_of_step_eq_next hin hs
      exact exec_keeps_cartridge (s := s.accept rest) hl he ht

/-- Settles O48: the step keeps the image, and in any state the image and `romBankIndex` fix what the ROM region shows. -/
theorem noStepChangesRomContent : Obligations.NoStepChangesRomContent := by
  intro s t img hl hc hs ht
  have hct : t.cartridgeHandle = some img := (step_keeps_cartridge hl hs ht).trans hc
  exact ⟨hct, fun a ha => ⟨State.readByte_lower_rom hc ha, State.readByte_lower_rom hct ha⟩,
    fun a hlo hhi => ⟨State.readByte_rom_window hc hlo hhi, State.readByte_rom_window hct hlo hhi⟩⟩

/-- A preload is a canonical listing of bytes of the ROM region (R64). -/
theorem Source.anonymous_wf_iff (preload : Memory) : (Source.anonymous preload).wf = true ↔
    Memory.wf preload ∧ Memory.within preload 0 0x8000 := by
  rw [Source.wf, Bool.and_eq_true, decide_eq_true_eq, decide_eq_true_eq]

/-- Settles O3: INIT NONE returns `State.started` with the preload as its address space, which lists nothing from 0x8000
on. -/
theorem initWithoutCartridgeShowsThePreload : Obligations.InitWithoutCartridgeShowsThePreload := by
  intro s preload hp hmap hwf
  obtain ⟨-, hlower⟩ := (Source.anonymous_wf_iff preload).1 hwf
  have shown (a : Addr) : (s.started none .none preload).readByte a = Memory.read preload a.toNat :=
    State.readByte_anonymous rfl a
  refine ⟨_, exec_init_anonymous preload hp hmap, rfl, rfl, rfl, fun a _ => shown a, fun a ha => ?_, ?_⟩
  · rw [shown]
    exact Memory.read_eq_zero_of_within hlower (.inr ha)
  · exact ⟨rfl, rfl, fun _ _ => rfl, rfl, rfl, rfl, rfl, rfl, rfl, rfl, rfl, rfl, rfl⟩

end Sys2Proof.Machine
end

section
/-! ## The RAM banks outside the window (spec/20_memory.md R62)

`State.ramByte s b o` is the live byte `o` of bank `b`, wherever it is held. A swap keeps every live byte (R125), and a
store into the window can reach the selected bank alone, so a bank comes back as it was left. -/

namespace Sys2Proof.Machine
variable (s : State)

/-- The window shows the live bytes of the selected bank. -/
theorem State.ramByte_selected {x : Addr} (hr : s.rtcWindowActive = false) (hx : inRamWindow x) :
    s.ramByte s.ramBankIndex (x.toNat - ramWindowBase) = s.readByte x := by
  rw [State.ramByte, if_pos ⟨rfl, hr⟩, Nat.add_sub_cancel' hx.1, State.readByte_upper s (inRamWindow_upper hx)]

/-- The live bytes of every other bank are in STORE. -/
theorem State.ramByte_of_ne {b : Nat} (hb : b ≠ s.ramBankIndex) (o : Nat) :
    s.ramByte b o = Memory.read s.ramBankStore (b * ramBankSize + o) := if_neg fun h => hb h.1

@[simp] theorem swapRamBank_config (req : Nat) : (swapRamBank req s).config = s.config := by
  rw [swapRamBank_eq]
@[simp] theorem swapRamBank_phase (req : Nat) : (swapRamBank req s).phase = s.phase := by
  rw [swapRamBank_eq]
@[simp] theorem swapRamBank_ramBankIndex (req : Nat) : (swapRamBank req s).ramBankIndex = req := rfl

/-- The swap keeps the live bytes of every bank (R125). -/
theorem swapRamBank_ramByte (req b : Nat) {o : Nat} (ho : o < ramBankSize) :
    (swapRamBank req s).ramByte b o = s.ramByte b o := by
  by_cases hb : b = req
  · subst hb
    rw [State.ramByte, if_pos ⟨rfl, rfl⟩, ← State.read_saveOutgoing_eq_ramByte s b o ho]
    exact State.read_loadWindow_inside s.saveOutgoing b o ho
  · rw [State.ramByte_of_ne (swapRamBank req s) hb, ← State.read_saveOutgoing_eq_ramByte s b o ho]
    rfl

/-- `MBC5.RAMB` of another bank in range is the swap (R154). -/
theorem exec_mbc5Ramb_of_ne {s : State} (a : Addr) {v : Byte} (hl : s.phase = .live)
    (hv : v.toNat < s.config.maxRamBanks) (hne : v.toNat ≠ s.ramBankIndex) :
    exec (.mbc5Ramb a v) s = .next (swapRamBank v.toNat s) := by
  rw [exec, execMbc5Ramb, State.whenLive_live hl, changeRamBank, if_neg (not_le.2 hv), if_neg fun h => hne h.1]

/-! ### Stores one after the other -/

/-- The stores of a list of (address, value) pairs, in order. -/
def State.storeAll (stores : List (Addr × Byte)) : State := stores.foldl (fun m w => m.memWrite w.1 w.2) s

/-- Stores change the address space alone. -/
theorem State.storeAll_frame (stores : List (Addr × Byte)) :
    s.storeAll stores = { s with addressSpace := (s.storeAll stores).addressSpace } := by
  induction stores generalizing s with
  | nil => rfl
  | cons w stores ih => exact ih (s.memWrite w.1 w.2)

@[simp] theorem State.storeAll_config (stores : List (Addr × Byte)) : (s.storeAll stores).config = s.config := by
  rw [State.storeAll_frame]
@[simp] theorem State.storeAll_phase (stores : List (Addr × Byte)) : (s.storeAll stores).phase = s.phase := by
  rw [State.storeAll_frame]
@[simp] theorem State.storeAll_ramBankIndex (stores : List (Addr × Byte)) :
    (s.storeAll stores).ramBankIndex = s.ramBankIndex := by
  rw [State.storeAll_frame]
@[simp] theorem State.storeAll_ramBankStore (stores : List (Addr × Byte)) :
    (s.storeAll stores).ramBankStore = s.ramBankStore := by
  rw [State.storeAll_frame]

/-- Stores into the window change no byte outside it. -/
theorem State.readByte_storeAll_outside {stores : List (Addr × Byte)} (hin : ∀ w ∈ stores, inRamWindow w.1) {x : Addr}
    (hx : ¬inRamWindow x) : (s.storeAll stores).readByte x = s.readByte x := by
  induction stores generalizing s with
  | nil => rfl
  | cons w stores ih =>
    obtain ⟨hw, hrest⟩ := List.forall_mem_cons.1 hin
    have hne : x ≠ w.1 := fun e => hx (e ▸ hw)
    exact (ih (s.memWrite w.1 w.2) hrest).trans (State.readByte_memWrite_other s w.2 hne)

/-- Stores reach no bank that is not selected. -/
theorem State.ramByte_storeAll_of_ne (stores : List (Addr × Byte)) {b : Nat} (hb : b ≠ s.ramBankIndex) (o : Nat) :
    (s.storeAll stores).ramByte b o = s.ramByte b o := by
  rw [State.ramByte_of_ne s hb, State.ramByte_of_ne (s.storeAll stores) (by simpa using hb), State.storeAll_ramBankStore]

/-- Away from the selected bank, stores into the window, and back: every byte reads as at the start. -/
theorem readByte_swap_storeAll_swap {away : Nat} {stores : List (Addr × Byte)} (hr : s.rtcWindowActive = false)
    (haway : s.ramBankIndex ≠ away) (hin : ∀ w ∈ stores, inRamWindow w.1) (x : Addr) :
    (swapRamBank s.ramBankIndex ((swapRamBank away s).storeAll stores)).readByte x = s.readByte x := by
  by_cases hx : inRamWindow x
  · have ho : x.toNat - ramWindowBase < ramBankSize := Nat.sub_lt_left_of_lt_add hx.1 hx.2
    calc (swapRamBank s.ramBankIndex ((swapRamBank away s).storeAll stores)).readByte x
      _ = ((swapRamBank away s).storeAll stores).ramByte s.ramBankIndex (x.toNat - ramWindowBase) :=
        swapRamBank_readByte_inside _ _ hx
      _ = (swapRamBank away s).ramByte s.ramBankIndex (x.toNat - ramWindowBase) :=
        State.ramByte_storeAll_of_ne (swapRamBank away s) stores haway _
      _ = s.ramByte s.ramBankIndex (x.toNat - ramWindowBase) := swapRamBank_ramByte s away _ ho
      _ = s.readByte x := State.ramByte_selected s hr hx
  · rw [swapRamBank_readByte_outside _ _ hx, State.readByte_storeAll_outside _ hin hx,
      swapRamBank_readByte_outside _ _ hx]

/-- Settles O26: both selects are swaps, and the swaps and the stores between them keep the live bytes of the bank left
behind. -/
theorem ramBankRoundTripRestoresThePattern : Obligations.RamBankRoundTripRestoresThePattern := by
  intro s r away a b stores hl hr hbank hne hrange haway hin
  have hother : away.toNat ≠ r.toNat := mt BitVec.eq_of_toNat_eq hne
  have back : exec (.mbc5Ramb b r) ((swapRamBank away.toNat s).storeAll stores) =
      .next (swapRamBank r.toNat ((swapRamBank away.toNat s).storeAll stores)) :=
    exec_mbc5Ramb_of_ne b (by simpa using hl) (by simpa using hrange) (by simpa using hother.symm)
  refine ⟨_, _, exec_mbc5Ramb_of_ne a hl haway (hbank ▸ hother), back, ?_⟩
  exact hbank ▸ readByte_swap_storeAll_swap s hr (hbank ▸ hother.symm) hin

end Sys2Proof.Machine
end

section
/-! ## The compiled-block table and the collaborator (spec/20_memory.md R73, spec/10_state.md R31) -/

namespace Sys2Proof.Machine
variable {s t : State} {i : Instr}

/-- Of the effects, only HRAM.W's scan touches the table or calls the collaborator. -/
theorem Effect.keeps_table (h : Effect s t i) (hne : ∀ a v, i ≠ .hramW a v) :
    t.blockTable = s.blockTable ∧ t.releaseCalls = s.releaseCalls := by
  cases h with
  | scanned a v _ => exact absurd rfl (hne a v)
  | romBank b _ _ chg => rw [chg, changeRomBank_frame]; exact ⟨rfl, rfl⟩
  | ramBank v _ _ swap => rw [swap, swapRamBank_eq]; exact ⟨rfl, rfl⟩
  | rtc a v view => rw [view, accessRtc_eq]; exact ⟨rfl, rfl⟩
  | _ => subst_vars; exact ⟨rfl, rfl⟩

/-- Settles O49: no effect but the scan touches either; INIT and FREE leave both as they were. -/
theorem onlyHighRamWritesReleaseBlocks : Obligations.OnlyHighRamWritesReleaseBlocks := by
  intro i s t hne he
  by_cases hinit : operationOf i = .init
  · obtain ⟨src, rfl⟩ := eq_init_of_operationOf hinit
    obtain ⟨-, ⟨e, rfl⟩ | ⟨img, -, -, rfl⟩ | ⟨preload, -, rfl⟩⟩ := exec_init_cases he <;> exact ⟨rfl, rfl⟩
  by_cases hfree : operationOf i = .free
  · obtain rfl := eq_free_of_operationOf hfree
    obtain ⟨-, r, rfl⟩ := exec_free_cases he
    exact ⟨rfl, rfl⟩
  · exact (exec_effect hinit hfree he).2.keeps_table hne

end Sys2Proof.Machine
end

section
/-! ## Decode and encode are inverse to each other (spec/30_encoding.md R81, R83, R84)

What decodes encodes back, branch by branch of the decode; a well-formed instruction in a context that selects it names
the branch its word takes. -/

namespace Sys2Proof
variable (x : DecodeCtx) {a : Addr} {v : Byte}

theorem encode_decodeRomRegion (a : Addr) (v : Byte) :
    encode x.config (decodeRomRegion x a v) = .wr (writeWord a v) := by
  unfold decodeRomRegion
  cases x.family with
  | mbc2 | unsupported => rfl
  | none | mbc3 | mbc5 => split_ifs <;> rfl
  | mbc1 => cases x.bankModeFlag <;> split_ifs <;> rfl

theorem encode_decodeUpper (a : Addr) (v : Byte) : encode x.config (decodeUpper x a v) = .wr (writeWord a v) := by
  unfold decodeUpper
  split_ifs with htimer hinput hserial hdma
  · exact htimer ▸ rfl
  · exact hinput ▸ rfl
  · exact hserial ▸ rfl
  · exact hdma ▸ rfl
  all_goals rfl

theorem encode_decodeWrite (a : Addr) (v : Byte) : encode x.config (decodeWrite x a v) = .wr (writeWord a v) := by
  unfold decodeWrite
  split
  · exact encode_decodeRomRegion x a v
  · exact encode_decodeUpper x a v

/-- Settles O39: the two halves of the decode encode back in each branch. -/
theorem decodedInstructionIsSelectedAndEncodesBack : Obligations.DecodedInstructionIsSelectedAndEncodesBack := by
  intro x req
  refine ⟨fun i h => ?_, by rintro word rfl; exact ⟨_, rfl⟩⟩
  obtain ⟨hwf, hsel⟩ := wf_selectedIn_of_decode h
  refine ⟨hwf, hsel, ?_⟩
  cases req with
  | init src => obtain ⟨-, rfl⟩ := decodeInit_ok h; rfl
  | wr t => cases h; rw [encode_decodeWrite, writeWord_fields]
  | rd _ | free | dump => cases h; rfl

/-- The RAM window and high RAM hold no special register (R6). -/
theorem Config.notSpecial_of_window_or_highRam (c : Config)
    (ha : (0xA000 ≤ a.toNat ∧ a.toNat < 0xC000) ∨ 0xFF80 ≤ a.toNat) : c.notSpecial a = true := by
  have h : a ∉ c.specialAddrs := fun hmem => by
    obtain ⟨-, hbelow, hwindow, -⟩ := Machine.Config.special_placed c hmem
    rcases ha with hin | hhigh
    · exact hwindow hin
    · omega
  simpa [Config.notSpecial] using h

variable (v)

theorem decodeUpper_timer : decodeUpper x x.config.addrTimerReset v = .timerW v := if_pos rfl

theorem decodeUpper_input : decodeUpper x x.config.addrInputPoll v = .inputW v := by
  have hne := Machine.Config.specials_distinct x.config
  simp [decodeUpper, hne]

theorem decodeUpper_serial : decodeUpper x x.config.addrSerialData v = .serialW v := by
  have hne := Machine.Config.specials_distinct x.config
  simp [decodeUpper, hne, hne.1.symm]

theorem decodeUpper_dma : decodeUpper x x.config.addrDmaTrigger v = .dmaW v := by
  obtain ⟨-, -, hinput, -, hserial, htimer⟩ := Machine.Config.specials_distinct x.config
  simp [decodeUpper, htimer.symm, hinput.symm, hserial.symm]

variable {x}

theorem decodeUpper_rtcWindow (ha : 0xA000 ≤ a.toNat ∧ a.toNat < 0xC000) (hview : x.rtcWindowActive = true) :
    decodeUpper x a v = .rtcwinW a v := by
  rw [decodeUpper_plain v (Config.notSpecial_of_window_or_highRam _ (.inl ha))]
  exact if_pos ⟨(ofNat_le_addr a (by decide)).2 ha.1, (addr_lt_ofNat a (by decide)).2 ha.2, hview⟩

theorem decodeUpper_highRam (ha : 0xFF80 ≤ a.toNat) : decodeUpper x a v = .hramW a v := by
  rw [decodeUpper_plain v (Config.notSpecial_of_window_or_highRam _ (.inr ha)), if_neg,
    if_pos ((ofNat_le_addr a (by decide)).2 ha)]
  rintro ⟨-, hbelow, -⟩
  have := (addr_lt_ofNat a (by decide)).1 hbelow
  omega

theorem decodeUpper_store (hwf : (Instr.storeW a v).wf x.config = true)
    (hsel : (Instr.storeW a v).selectedIn x = true) : decodeUpper x a v = .storeW a v := by
  obtain ⟨⟨-, hbelow⟩, hplain⟩ := (storeW_wf_iff v _).1 hwf
  rw [decodeUpper_plain v hplain, if_neg, if_neg]
  · exact fun hhigh => hbelow.not_ge ((ofNat_le_addr a (by decide)).1 hhigh)
  · rintro ⟨hlo, hhi, hview⟩
    exact (storeW_selectedIn_iff x v).1 hsel
      ⟨(ofNat_le_addr a (by decide)).1 hlo, (addr_lt_ofNat a (by decide)).1 hhi⟩ hview

variable {v} {i : Instr}

theorem decode_lower (ha : a.toNat < 0x8000) (h : decodeRomRegion x a v = i) :
    decode x (.wr (writeWord a v)) = .ok i := by
  rw [decode, wordAddr_writeWord, wordValue_writeWord, decodeWrite_lower x v ha, h]

theorem decode_upper (ha : 0x8000 ≤ a.toNat) (h : decodeUpper x a v = i) :
    decode x (.wr (writeWord a v)) = .ok i := by
  rw [decode, wordAddr_writeWord, wordValue_writeWord, decodeWrite_upper x v ha, h]

/-- Settles O38: below 0x8000 the family and the address range name the branch that the word takes; above, each row of
the map has its own lemma. -/
theorem decodeOfEncodeGivesTheInstructionBack : Obligations.DecodeOfEncodeGivesTheInstructionBack := by
  intro x i hwf hsel
  cases i with
  | unsupW a v =>
    simp only [Instr.wf, Instr.selectedIn, inRange_iff, Bool.or_eq_true, beq_iff_eq] at hwf hsel
    refine decode_lower hwf.2 ?_
    rcases hsel with hf | hf <;> simp only [decodeRomRegion, hf]
  | latchNop a v =>
    simp only [Instr.wf, Instr.selectedIn, inRange_iff, Bool.and_eq_true, bne_iff_ne] at hwf hsel
    refine decode_lower (by omega) ?_
    cases hf : x.family <;> simp_all [decodeRomRegion, addr_lt_ofNat]
  | noneIgn a v | mbc1Romb a v | mbc1Stash a v | mbc1Ramb a v | mbc1Mode a v | mbc3Romb a v | mbc3Ramb a v
  | mbc3Rtcsel a v | mbc3Latch a v | mbc5Romb a v | mbc5Ramb a v | mbc5Na a v =>
    simp only [Instr.wf, Instr.selectedIn, inRange_iff, Bool.and_eq_true, beq_iff_eq, decide_eq_true_eq] at hwf hsel
    refine decode_lower (by omega) ?_
    simp (disch := omega) only [decodeRomRegion, hsel, addr_lt_ofNat, BitVec.le_def, BitVec.toNat_ofNat, if_pos, if_neg]
  | timerW v => exact decode_upper (Machine.Config.timer_placed _).1 (decodeUpper_timer x v)
  | inputW v => exact decode_upper (Machine.Config.input_placed _).1 (decodeUpper_input x v)
  | serialW v => exact decode_upper (Machine.Config.serial_placed _).1 (decodeUpper_serial x v)
  | dmaW v => exact decode_upper (Machine.Config.dma_placed _).1 (decodeUpper_dma x v)
  | rtcwinW a v =>
    have ha := (inRange_iff _ _ a).1 hwf
    exact decode_upper (by omega) (decodeUpper_rtcWindow v ha hsel)
  | hramW a v =>
    have ha := ((inRange_iff _ _ a).1 hwf).1
    exact decode_upper (by omega) (decodeUpper_highRam v ha)
  | storeW a v => exact decode_upper ((storeW_wf_iff v _).1 hwf).1.1 (decodeUpper_store v hwf hsel)
  | init src => exact if_pos hwf
  | read _ | free | dump => rfl

end Sys2Proof
end

section
/-! ## The opcode map as rows, against the decode (spec/30_encoding.md R83, R84)

A row is a candidate where the decode takes it; the two rows that overlap others, NONE.IGN and STORE.W, are candidates
there besides, with the larger priority. -/

namespace Sys2Proof
variable {x : DecodeCtx} {t : BitVec 24} {r : Row}

/-- A word decodes to the one instruction that is well formed, selected and encoded by it. -/
theorem decodeWrite_eq_iff {i : Instr} : decodeWrite x (wordAddr t) (wordValue t) = i ↔
    i.wf x.config = true ∧ i.selectedIn x = true ∧ encode x.config i = .wr t := by
  refine ⟨fun h => ?_, fun ⟨hwf, hsel, henc⟩ => ?_⟩
  · exact (decodedInstructionIsSelectedAndEncodesBack x (.wr t)).1 i (congrArg _ h)
  · have h := decodeOfEncodeGivesTheInstructionBack x i hwf hsel
    rw [henc] at h
    exact Except.ok.inj h

theorem writeWord_wordValue_eq_iff {a : Addr} : writeWord a (wordValue t) = t ↔ wordAddr t = a :=
  ⟨fun h => by rw [← h, wordAddr_writeWord], fun h => by rw [← h, writeWord_fields]⟩

/-- The family column of LATCH.NOP, against its row's condition. -/
theorem latchFamilies_contains (f : Family) :
    [Family.none, .mbc1, .mbc3, .mbc5].contains f = (f != .mbc2 && f != .unsupported) := by
  cases f <;> rfl

theorem anyFamily_contains (f : Family) : anyFamily.contains f = true := by
  cases f <;> rfl

/-- The two rows of the map that overlap rows of a smaller priority, where they do: NONE.IGN under LATCH.NOP, STORE.W
under every other row from 0x8000 on. -/
def Row.Overlapped (r : Row) (x : DecodeCtx) (a : Addr) : Prop :=
  (r.mnemonic = "NONE.IGN" ∧ r.priority = 2 ∧ x.family = .none ∧ a.toNat < 0x2000) ∨
  (r.mnemonic = "STORE.W" ∧ r.priority = 3 ∧ 0x8000 ≤ a.toNat)

theorem romRow_candidate_iff (hr : r ∈ romRegionRows) : r.candidate x t = true ↔
    decodeWrite x (wordAddr t) (wordValue t) = r.make (wordAddr t) (wordValue t) ∨ r.Overlapped x (wordAddr t) := by
  rw [Row.candidate_iff, decodeWrite_eq_iff, Row.Overlapped]
  simp only [romRegionRows, List.mem_cons, List.not_mem_nil, or_false] at hr
  rcases hr with rfl | rfl | rfl | rfl | rfl | rfl | rfl | rfl | rfl | rfl | rfl | rfl | rfl | rfl <;>
    simp only [match_lowerHalf, match_range0, match_range1, match_range2, match_range3, latchFamilies_contains,
      noCondition, Instr.wf, Instr.selectedIn, encode, writeWord_fields] <;>
    simp [inRange_iff]
  -- NONE.IGN: the decode takes it from 0x2000 on, and below it is overlapped
  · rw [and_comm, and_comm (b := x.family = .none), ← and_or_left]
    exact and_congr_right fun _ => by omega
  -- MBC3.RAMB and MBC3.RTCSEL: the bound on the value stands with the operands in `Instr.wf`, not with the family
  · tauto
  · tauto

theorem upperRow_candidate_iff (hr : r ∈ upperRows x.config) : r.candidate x t = true ↔
    decodeWrite x (wordAddr t) (wordValue t) = r.make (wordAddr t) (wordValue t) ∨ r.Overlapped x (wordAddr t) := by
  rw [Row.candidate_iff, decodeWrite_eq_iff, Row.Overlapped]
  simp only [upperRows, List.mem_cons, List.not_mem_nil, or_false] at hr
  rcases hr with rfl | rfl | rfl | rfl | rfl | rfl | rfl <;>
    simp only [match_addr, match_range5, match_highRam, match_upperHalf, anyFamily_contains, noCondition, Instr.wf,
      Instr.selectedIn, encode, writeWord_fields, Request.wr.injEq, writeWord_wordValue_eq_iff,
      eq_comm (a := wordAddr t)] <;>
    simp [inRange_iff]
  -- HRAM.W: every address lies below 0x10000
  · omega
  -- STORE.W: what the decode takes lies from 0x8000 on
  · tauto

theorem Row.candidate_iff_decodeWrite (hr : r ∈ commandRows x.config) : r.candidate x t = true ↔
    decodeWrite x (wordAddr t) (wordValue t) = r.make (wordAddr t) (wordValue t) ∨ r.Overlapped x (wordAddr t) :=
  (List.mem_append.1 hr).elim romRow_candidate_iff upperRow_candidate_iff

/-- The rows stand in the order of the instructions' constructors. -/
theorem commandRows_ctorIdx (c : Config) (a : Addr) (v : Byte) :
    (commandRows c).map (fun r => (r.make a v).ctorIdx) = List.range 21 := rfl

theorem Row.eq_of_make_eq {c : Config} {r' : Row} {a : Addr} {v : Byte} (hr : r ∈ commandRows c)
    (hr' : r' ∈ commandRows c) (h : r.make a v = r'.make a v) : r = r' :=
  List.inj_on_of_nodup_map (commandRows_ctorIdx c a v ▸ List.nodup_range) hr hr' (congrArg Instr.ctorIdx h)

/-- One lemma per constructor, together. -/
theorem rowMatch_statement : ∀ i : Instr, Laws.RowMatch.Statement i
  | .unsupW a v => Laws.RowMatch.unsupW a v
  | .latchNop a v => Laws.RowMatch.latchNop a v
  | .noneIgn a v => Laws.RowMatch.noneIgn a v
  | .mbc1Romb a v => Laws.RowMatch.mbc1Romb a v
  | .mbc1Stash a v => Laws.RowMatch.mbc1Stash a v
  | .mbc1Ramb a v => Laws.RowMatch.mbc1Ramb a v
  | .mbc1Mode a v => Laws.RowMatch.mbc1Mode a v
  | .mbc3Romb a v => Laws.RowMatch.mbc3Romb a v
  | .mbc3Ramb a v => Laws.RowMatch.mbc3Ramb a v
  | .mbc3Rtcsel a v => Laws.RowMatch.mbc3Rtcsel a v
  | .mbc3Latch a v => Laws.RowMatch.mbc3Latch a v
  | .mbc5Romb a v => Laws.RowMatch.mbc5Romb a v
  | .mbc5Ramb a v => Laws.RowMatch.mbc5Ramb a v
  | .mbc5Na a v => Laws.RowMatch.mbc5Na a v
  | .timerW v => Laws.RowMatch.timerW v
  | .inputW v => Laws.RowMatch.inputW v
  | .serialW v => Laws.RowMatch.serialW v
  | .dmaW v => Laws.RowMatch.dmaW v
  | .rtcwinW a v => Laws.RowMatch.rtcwinW a v
  | .hramW a v => Laws.RowMatch.hramW a v
  | .storeW a v => Laws.RowMatch.storeW a v
  | .read a => Laws.RowMatch.read a
  | .init src => Laws.RowMatch.init src
  | .free => Laws.RowMatch.free
  | .dump => Laws.RowMatch.dump

theorem exists_row_decodeWrite (x : DecodeCtx) (t : BitVec 24) : ∃ r ∈ commandRows x.config,
    r.make (wordAddr t) (wordValue t) = decodeWrite x (wordAddr t) (wordValue t) := by
  obtain ⟨hwf, -, henc⟩ := decodeWrite_eq_iff.1 (Eq.refl (decodeWrite x (wordAddr t) (wordValue t)))
  obtain ⟨r, hr, -, hmake⟩ := rowMatch_statement _ x.config t hwf henc
  exact ⟨r, hr, hmake⟩

theorem Row.priority_lt_three {c : Config} (hr : r ∈ commandRows c) (hn : r.mnemonic ≠ "STORE.W") :
    r.priority < 3 := by
  have h : ∀ r ∈ commandRows c, r.mnemonic = "STORE.W" ∨ r.priority < 3 := by
    simp [commandRows, romRegionRows, upperRows]
  exact (h r hr).resolve_left hn

theorem decodeWrite_none_latch (hf : x.family = .none) {a : Addr} (v : Byte) (ha : a.toNat < 0x2000) :
    decodeWrite x a v = .latchNop a v := by
  rw [decodeWrite_lower x v (by omega)]
  simp (disch := omega) only [decodeRomRegion, hf, addr_lt_ofNat, if_pos]

/-- Settles O40: the row that makes the decoded instruction is a candidate. Another candidate makes no other
instruction, so it is NONE.IGN under LATCH.NOP or STORE.W, each with the larger priority. -/
theorem priorityRowsAgreeWithTheDecode : Obligations.PriorityRowsAgreeWithTheDecode := by
  intro x t
  obtain ⟨r, hr, hmake⟩ := exists_row_decodeWrite x t
  refine ⟨r, hr, (Row.candidate_iff_decodeWrite hr).2 (.inl hmake.symm), hmake, fun r' hr' hc hne => ?_⟩
  rcases (Row.candidate_iff_decodeWrite hr').1 hc with hmake' | ⟨-, hp, hf, ha⟩ | ⟨hstore, hp, -⟩
  · exact absurd (congrArg Row.mnemonic (Row.eq_of_make_eq hr' hr (hmake'.symm.trans hmake.symm))) hne
  · rw [decodeWrite_none_latch hf _ ha] at hmake
    rw [Row.eq_of_make_eq hr (Laws.RowMatch.row 1 (by decide : 1 < 21)) hmake, hp]
    exact Nat.one_lt_two
  · rw [hp]
    exact Row.priority_lt_three hr fun h => hne (hstore.trans h.symm)

end Sys2Proof
end

section
/-! ## The bits that a command does not read (spec/30_encoding.md R86 (c))

Two values that agree under a mask agree on every bit of it, and an operand formula reads only the bits of its mask. -/

namespace Sys2Proof.Machine
variable {v w : Byte}

theorem getLsbD_eq_of_and_eq {m : Byte} (h : v &&& m = w &&& m) {k : Nat} (hk : m.getLsbD k = true) :
    v.getLsbD k = w.getLsbD k := by
  simpa [hk] using congrArg (BitVec.getLsbD · k) h

theorem lowBits_congr {m : Byte} (h : v &&& m = w &&& m) {n : Nat} (hm : ∀ k < n, m.getLsbD k = true) :
    lowBits n v = lowBits n w := by
  have hbits : v.extractLsb' 0 n = w.extractLsb' 0 n := by
    apply BitVec.eq_of_getLsbD_eq
    intro k hk
    simpa [hk] using getLsbD_eq_of_and_eq h (hm k hk)
  rw [lowBits, hbits, lowBits]

theorem mbc1Bank_congr (h : v &&& 0x1F#8 = w &&& 0x1F#8) (m : BankMode) (stash : BankNo) :
    mbc1Bank m stash v = mbc1Bank m stash w := by
  have hlow : lowBits 5 v = lowBits 5 w := lowBits_congr h (by decide)
  cases m <;> simp only [mbc1Bank, hlow]

theorem mbc3Bank_congr (h : v &&& 0x7F#8 = w &&& 0x7F#8) : mbc3Bank v = mbc3Bank w := by
  rw [mbc3Bank, lowBits_congr h (by decide), mbc3Bank]

theorem bankModeOf_congr (h : v &&& 0x01#8 = w &&& 0x01#8) : bankModeOf v = bankModeOf w := by
  rw [bankModeOf, getLsbD_eq_of_and_eq h (by decide : (0x01#8).getLsbD 0 = true), bankModeOf]

theorem inputByte_congr (h : v &&& 0x30#8 = w &&& 0x30#8) (buttons : Byte) :
    inputByte buttons v = inputByte buttons w := by
  have h4 := getLsbD_eq_of_and_eq h (by decide : (0x30#8).getLsbD 4 = true)
  have h5 := getLsbD_eq_of_and_eq h (by decide : (0x30#8).getLsbD 5 = true)
  simp only [inputByte, requestedButtons, h4, h5]

/-- Settles O41: the value enters MBC1.ROMB, MBC3.ROMB, MBC1.MODE and INPUT.W through one operand formula each; the
other operands named do not enter at all. -/
theorem ignoredBitsHaveNoEffect : Obligations.IgnoredBitsHaveNoEffect := by
  intro s a b v w
  refine ⟨fun h => ?_, fun h => ?_, fun h => ?_, rfl, fun h => ?_, rfl, rfl, rfl, rfl, rfl, rfl⟩
  · simp only [exec, execMbc1Romb, mbc1Bank_congr h]
  · simp only [exec, execMbc3Romb, mbc3Bank_congr h]
  · simp only [exec, execMbc1Mode, bankModeOf_congr h]
  · simp only [exec, execInputW, inputByte_congr h]

end Sys2Proof.Machine
end

section
/-! ## Words written out and words fetched (spec/30_encoding.md R80, R81) -/

namespace Sys2Proof.Machine

/-- Settles O37: each word is the encoding of its command, which is well formed and selected in the context given. -/
theorem writtenOutWordsDecode : Obligations.WrittenOutWordsDecode := by
  rintro _ rfl
  have back := decodeOfEncodeGivesTheInstructionBack
  exact ⟨back _ (.mbc1Romb 0x2100 0x03) rfl rfl, back _ (.mbc1Stash 0x4000 0x01) rfl rfl,
    back _ (.mbc1Ramb 0x4000 0x02) rfl rfl, back _ (.mbc3Ramb 0x4000 0x04) rfl rfl,
    back _ (.mbc3Rtcsel 0x4000 0x05) rfl rfl, back _ (.mbc5Romb 0x3000 0x00) rfl rfl,
    back _ (.rtcwinW 0xA000 0x77) rfl rfl, back _ (.dmaW 0xC0) rfl rfl, back _ (.hramW 0xFF95 0xC9) rfl rfl⟩

theorem withFetchWord_inbox (s : State) {nbits w : Nat} {req : Request} (h : requestOfBits nbits w = .ok req) :
    s.withFetchWord nbits w = { s with inbox := .request req :: s.inbox } := by
  rw [State.withFetchWord, h]

theorem step_withFetchWord {s : State} {nbits w : Nat} {req : Request} {i : Instr} (h : requestOfBits nbits w = .ok req)
    (hdec : decode s.decodeCtx req = .ok i) : step (s.withFetchWord nbits w) = exec i { s with reply := .none } := by
  rw [withFetchWord_inbox s h]
  exact step_of_inbox_request rfl hdec

theorem decodeTableWord_eq_some {nbits w : Nat} {i : Instr} (h : decodeTableWord nbits w = some i) :
    ∃ req, requestOfBits nbits w = .ok req ∧ decode State.reset.decodeCtx req = .ok i := by
  unfold decodeTableWord at h
  split at h
  · cases h
  · next req hreq =>
    split at h
    · cases h
    · next i' hdec =>
      obtain rfl := Option.some.inj h
      exact ⟨req, hreq, hdec⟩

/-- Settles O44: the placed request is the oldest; right after reset the state's context is the one `decodeTableWord`
reads in. -/
theorem fetchedWordIsPerformedNext : Obligations.FetchedWordIsPerformedNext := by
  refine ⟨fun s nbits w req i hreq hdec => step_withFetchWord hreq hdec, fun nbits w i h => ?_⟩
  obtain ⟨req, hreq, hdec⟩ := decodeTableWord_eq_some h
  exact step_withFetchWord hreq hdec

end Sys2Proof.Machine
end

section
/-! ## READ and DUMP (spec/40_mapper_lifecycle.md R105, R108) -/

namespace Sys2Proof.Machine
variable {s : State}

theorem exec_read_of_live (a : Addr) (hl : s.phase = .live) :
    exec (.read a) s = .next { s with reply := .value (s.readByte a) } := by
  rw [exec, execRead, State.whenLive_live hl]; rfl

theorem exec_dump_of_live (hl : s.phase = .live) : exec .dump s = .next { s with reply := .summary s.header } := by
  rw [exec, execDump, State.whenLive_live hl]; rfl

/-- Settles O6: the reads of the ROM region go to the cartridge; the two zeros are fields of the invariant. -/
theorem readReturnsTheByteAndChangesNothing : Obligations.ReadReturnsTheByteAndChangesNothing := by
  intro s a
  refine ⟨exec_read_of_live a, exec_of_not_live nofun, fun img hc ha => ?_, fun h hview => h.rtcReadsZero hview a,
    fun h => h.timerReadsZero⟩
  rw [State.readByte_cartridge hc, if_pos ha]

theorem State.readBytes_getElem (s : State) (base : Nat) {n k : Nat} (hk : k < n) :
    (s.readBytes (BitVec.ofNat 16 base) n)[k] = s.readByte (BitVec.ofNat 16 (base + k)) := by
  rw [State.readBytes, Vector.getElem_ofFn, BitVec.ofNat_add]

/-- Settles O10: byte `k` of the manufacturer and byte `k + 11` of the title are read at one address. -/
theorem dumpReturnsTheHeaderBytes : Obligations.DumpReturnsTheHeaderBytes := by
  intro s hl
  have title {k : Nat} (hk : k < 15) : s.header.title[k] = s.readByte (BitVec.ofNat 16 (0x0134 + k)) :=
    s.readBytes_getElem 0x0134 hk
  have manufacturer {k : Nat} (hk : k < 4) : s.header.manufacturer[k] = s.readByte (BitVec.ofNat 16 (0x013F + k)) :=
    s.readBytes_getElem 0x013F hk
  refine ⟨s.header, exec_dump_of_live hl, fun k => title k.isLt, fun k => manufacturer k.isLt, fun k => ?_,
    rfl, rfl, rfl⟩
  have overlap : 0x0134 + (k.val + 11) = 0x013F + k.val := by omega
  rw [title, overlap]
  exact manufacturer k.isLt

end Sys2Proof.Machine
end

section
/-! ## FREE (spec/40_mapper_lifecycle.md R106, R107) -/

namespace Sys2Proof.Machine

theorem exec_free_of_live {s : State} (hl : s.phase = .live) : exec .free s = .next
    (if s.inputs.unmapOk = true then { s.withoutItems with phase := .freed, reply := .none }
     else { s.withoutItems with phase := .freed, reply := .error .teardownError }) := by
  rw [exec, execFree, State.whenLive_live hl]; rfl

/-- Settles O7: the release does not look at `UnmapOk`; the reply alone does. -/
theorem freeReleasesEverything : Obligations.FreeReleasesEverything := by
  intro s hl
  rw [exec_free_of_live hl]
  exact ⟨fun hunmap => by rw [if_pos hunmap], fun hunmap => by rw [if_neg (by simp [hunmap])]⟩

/-- Settles O8: with and without the failure FREE answers the same released state but for the reply, and FREED accepts
no second FREE. -/
theorem teardownErrorIsReportedAfterTheRelease : Obligations.TeardownErrorIsReportedAfterTheRelease := by
  intro s hl hfail
  have failed := (freeReleasesEverything s hl).2 hfail
  have succeeded := (freeReleasesEverything { s with inputs := { s.inputs with unmapOk := true } } hl).1 rfl
  exact ⟨_, _, failed, succeeded, rfl, rfl, rfl, rfl, exec_of_not_live nofun nofun⟩

end Sys2Proof.Machine
end

section
/-! ## A failing INIT (spec/40_mapper_lifecycle.md R101, R102, spec/60_exceptions.md R211) -/

namespace Sys2Proof.Machine
variable {s : State}

/-- A failed opening is reported whatever the length and the mapping are (R211 (b)). -/
theorem State.initialise_cartridge_not_opened (img : Image) (hopen : s.inputs.openOk = false) :
    s.initialise (.cartridge img) = s.raise (.initError .opening) := if_pos hopen

/-- Once opened, an image that is too short and a failed mapping are the same error. -/
theorem State.initialise_cartridge_not_mapped {img : Image} (hopen : s.inputs.openOk = true)
    (hmap : img.len < 0x8000 ∨ s.inputs.mapOk = false) :
    s.initialise (.cartridge img) = s.raise (.initError .mapping) := by
  rw [State.initialise, initCartridge, if_neg (by simp [hopen])]
  split
  case isTrue => rfl
  case isFalse hlen => exact if_pos (hmap.resolve_left hlen)

theorem State.initialise_anonymous_not_mapped (preload : Memory) (hmap : s.inputs.mapOk = false) :
    s.initialise (.anonymous preload) = s.raise (.initError .mapping) := if_pos hmap

/-- Settles O4: each case is a failing branch of INIT, and `State.raise` keeps the phase UNINIT, which accepts INIT
alone. -/
theorem initErrorRetainsNothing : Obligations.InitErrorRetainsNothing := by
  intro s src failed hp hfail
  have raised : s.initialise src = s.raise (.initError failed) := by
    obtain ⟨img, rfl, ⟨hopen, rfl⟩ | ⟨hopen, hmap, rfl⟩⟩ | ⟨preload, rfl, hmap, rfl⟩ := hfail
    · exact State.initialise_cartridge_not_opened img hopen
    · exact State.initialise_cartridge_not_mapped hopen hmap
    · exact State.initialise_anonymous_not_mapped preload hmap
  refine ⟨(exec_init_of_uninit src hp).trans (congrArg _ raised), fun i hinit => ?_⟩
  rw [exec_of_not_live hinit (by simp [hp]), hp]

end Sys2Proof.Machine
end

section
/-! ## The sink and the reply (spec/40_mapper_lifecycle.md R109, spec/60_exceptions.md R200, R201) -/

namespace Sys2Proof.Machine
variable {s t : State} {i : Instr}

section
variable (s : State) (b : BankNo) (req : Nat) (a : Addr)

theorem changeRomBank_sink_cases :
    (changeRomBank b s).sink = s.sink ∨ (changeRomBank b s).sink = s.sink ++ [.remapError b] := by
  rcases changeRomBank_cases b s with ⟨-, e⟩ | ⟨-, -, e⟩ | ⟨-, -, e⟩ <;> rw [e]
  · exact .inl rfl
  · exact .inl rfl
  · exact .inr rfl

@[simp] theorem changeRomBank_reply : (changeRomBank b s).reply = s.reply := by
  rw [changeRomBank_frame]
@[simp] theorem swapRamBank_sink : (swapRamBank req s).sink = s.sink := by
  rw [swapRamBank_eq]
@[simp] theorem swapRamBank_reply : (swapRamBank req s).reply = s.reply := by
  rw [swapRamBank_eq]
@[simp] theorem accessRtc_sink : (accessRtc s).sink = s.sink := by
  rw [accessRtc_eq]
@[simp] theorem accessRtc_reply : (accessRtc s).reply = s.reply := by
  rw [accessRtc_eq]
@[simp] theorem invalidationScan_sink : (invalidationScan a s).sink = s.sink := by
  rw [invalidationScan_frame]
@[simp] theorem invalidationScan_reply : (invalidationScan a s).reply = s.reply := by
  rw [invalidationScan_frame]

end

/-- Of the effects, only UNSUP.W's and the ROM-bank selects' can report, and they report one event. -/
theorem Effect.sink_cases (h : Effect s t i) : t.sink = s.sink ∨
    ((∃ a v, i = .unsupW a v) ∨ selectsRomBank i) ∧ ∃ event, t.sink = s.sink ++ [event] := by
  cases h with
  | reported a v ev =>
    subst ev
    exact .inr ⟨.inl ⟨a, v, rfl⟩, _, rfl⟩
  | romBank b sel _ chg =>
    rcases changeRomBank_sink_cases s b with kept | grown
    · exact .inl (chg ▸ kept)
    · exact .inr ⟨.inr sel, _, chg ▸ grown⟩
  | _ => subst_vars; simp

theorem exec_sink_cases (hinit : operationOf i ≠ .init) (he : exec i s = .next t) : t.sink = s.sink ∨
    ((∃ a v, i = .unsupW a v) ∨ selectsRomBank i) ∧ ∃ event, t.sink = s.sink ++ [event] := by
  by_cases hfree : operationOf i = .free
  · obtain rfl := eq_free_of_operationOf hfree
    obtain ⟨-, r, rfl⟩ := exec_free_cases he
    exact .inl rfl
  · exact (exec_effect hinit hfree he).2.sink_cases

/-- Of the effects, only those of READ and DUMP hand the requester a result. -/
theorem Effect.keeps_reply (h : Effect s t i) (hw : operationOf i = .write) : t.reply = s.reply := by
  cases h with
  | replied _ query _ => simp [hw] at query
  | _ => subst_vars; simp

/-- Settles O52: the events are none, or the one that the effect reports. -/
theorem sinkGrowsOnlyByReportedCommands : Obligations.SinkGrowsOnlyByReportedCommands := by
  intro i s t he hinit
  refine ⟨?_, fun hw => (exec_effect hinit (by simp [hw]) he).2.keeps_reply hw⟩
  rcases exec_sink_cases hinit he with kept | ⟨command, event, grown⟩
  · exact ⟨[], by simpa using kept, Nat.zero_le 1, fun hne => absurd rfl hne⟩
  · exact ⟨[event], grown, le_refl 1, fun _ => command⟩

end Sys2Proof.Machine
end

section
/-! ## The ROM-bank change (spec/41_bank_switch.md R120 to R122) -/

namespace Sys2Proof.Machine
variable (s : State) (b : BankNo)

@[simp] theorem changeRomBank_cartridgeHandle : (changeRomBank b s).cartridgeHandle = s.cartridgeHandle := by
  rw [changeRomBank_frame]
@[simp] theorem changeRomBank_addressSpace : (changeRomBank b s).addressSpace = s.addressSpace := by
  rw [changeRomBank_frame]

/-- A ROM-bank change touches no byte above the ROM region (R122 (a)). -/
theorem changeRomBank_readByte_upper {a : Addr} (ha : 0x8000 ≤ a.toNat) :
    (changeRomBank b s).readByte a = s.readByte a := by
  rw [State.readByte_upper _ ha, State.readByte_upper _ ha, changeRomBank_addressSpace]

/-- Once a bank that exists is selected, the window shows that bank of the image, whatever was selected before
(R122 (b)). -/
theorem changeRomBank_readByte_window {s : State} {b : BankNo} {img : Image} {a : Addr}
    (hc : s.cartridgeHandle = some img) (hb : b.toNat < s.romBanks) (hlo : 0x4000 ≤ a.toNat) (hhi : a.toNat < 0x8000) :
    (changeRomBank b s).readByte a = imageByte img (b.toNat * 0x4000 + (a.toNat - 0x4000)) := by
  rw [State.readByte_rom_window ((changeRomBank_cartridgeHandle s b).trans hc) hlo hhi, changeRomBank_romBankIndex hb]

/-- Settles O12: the frame is that of the change; after each selection the window is the image's at that bank, and the
changes before it keep the cartridge. -/
theorem romWindowDependsOnTheBankAlone : Obligations.RomWindowDependsOnTheBankAlone := by
  refine ⟨fun s b => ⟨changeRomBank_frame b s, fun a => changeRomBank_readByte_upper s b⟩,
    fun s img b c a hc hb _ hlo hhi => ?_⟩
  have first := changeRomBank_readByte_window hc hb hlo hhi
  have again : (changeRomBank b (changeRomBank c (changeRomBank b s))).readByte a = _ :=
    changeRomBank_readByte_window (by simpa using hc) (by simpa using hb) hlo hhi
  exact ⟨first, again.trans first.symm⟩

end Sys2Proof.Machine
end

section
/-! ## What a RAM-bank change answers (spec/41_bank_switch.md R123 to R125)

An answered change was the no-op or the swap. Each law of R123 and R125 is stated once of the answer, whichever it was. -/

namespace Sys2Proof.Machine
variable {s t : State} {req : Byte}

/-- An answered change was the no-op, on the bank that the window shows, or the swap. -/
theorem changeRamBank_next_cases (h : changeRamBank req s = .next t) :
    (req.toNat = s.ramBankIndex ∧ s.rtcWindowActive = false ∧ t = s) ∨
    (¬(req.toNat = s.ramBankIndex ∧ s.rtcWindowActive = false) ∧ t = swapRamBank req.toNat s) := by
  rcases changeRamBank_cases req s with ⟨-, e⟩ | ⟨-, hbank, hview, e⟩ | ⟨-, hne, e⟩ <;> cases e.symm.trans h
  · exact .inl ⟨hbank, hview, rfl⟩
  · exact .inr ⟨hne, rfl⟩

theorem changeRamBank_of_inRange (hv : req.toNat < s.config.maxRamBanks) : ∃ t, changeRamBank req s = .next t := by
  rcases changeRamBank_cases req s with ⟨hout, -⟩ | ⟨-, -, -, e⟩ | ⟨-, -, e⟩
  · omega
  · exact ⟨_, e⟩
  · exact ⟨_, e⟩

/-- The range fault names the request, which is out of range (R124). -/
theorem changeRamBank_eq_rangeFault_iff {bank : Byte} :
    changeRamBank req s = .fault (.ramBankRange bank) ↔ bank = req ∧ s.config.maxRamBanks ≤ req.toNat := by
  rcases changeRamBank_cases req s with ⟨hout, e⟩ | ⟨hin, -, -, e⟩ | ⟨hin, -, e⟩ <;> rw [e]
  · simp [hout, eq_comm]
  · simp [hin]
  · simp [hin]

section
variable (h : changeRamBank req s = .next t)
include h

/-- The bank is the request, the view is off, and besides these only the address space and STORE can change
(R125 (b), (c)). -/
theorem changeRamBank_next_frame : t =
    { s with
      addressSpace := t.addressSpace, ramBankStore := t.ramBankStore,
      rtcWindowActive := false, ramBankIndex := req.toNat } := by
  rcases changeRamBank_next_cases h with ⟨hbank, hview, rfl⟩ | ⟨-, rfl⟩
  · rw [hbank, ← hview]
  · rw [swapRamBank_eq]

/-- Every bank keeps its live content (R125 (a)). -/
theorem changeRamBank_next_ramByte (b : Nat) {o : Nat} (ho : o < ramBankSize) : t.ramByte b o = s.ramByte b o := by
  rcases changeRamBank_next_cases h with ⟨-, -, rfl⟩ | ⟨-, rfl⟩
  · rfl
  · exact swapRamBank_ramByte s req.toNat b ho

theorem changeRamBank_next_readByte_inside {a : Addr} (ha : inRamWindow a) :
    t.readByte a = s.ramByte req.toNat (a.toNat - ramWindowBase) := by
  rcases changeRamBank_next_cases h with ⟨hbank, hview, rfl⟩ | ⟨-, rfl⟩
  · rw [hbank, State.ramByte_selected _ hview ha]
  · exact swapRamBank_readByte_inside req.toNat s ha

theorem changeRamBank_next_readByte_outside {a : Addr} (ha : ¬inRamWindow a) : t.readByte a = s.readByte a := by
  rcases changeRamBank_next_cases h with ⟨-, -, rfl⟩ | ⟨-, rfl⟩
  · rfl
  · exact swapRamBank_readByte_outside req.toNat s ha

/-- STORE takes the window into the outgoing bank's slot, unless the window was the RTC view or the change a no-op, and
keeps every other slot. -/
theorem changeRamBank_next_store (b : Nat) {o : Nat} (ho : o < ramBankSize) :
    Memory.read t.ramBankStore (b * ramBankSize + o) =
      if b = s.ramBankIndex ∧ s.rtcWindowActive = false ∧ req.toNat ≠ s.ramBankIndex
      then Memory.read s.addressSpace (ramWindowBase + o)
      else Memory.read s.ramBankStore (b * ramBankSize + o) := by
  rcases changeRamBank_next_cases h with ⟨hbank, -, rfl⟩ | ⟨hne, rfl⟩
  · rw [if_neg fun ⟨_, _, hother⟩ => hother hbank]
  · have saved : s.rtcWindowActive = false ↔ s.rtcWindowActive = false ∧ req.toNat ≠ s.ramBankIndex :=
      ⟨fun hview => ⟨hview, fun hbank => hne ⟨hbank, hview⟩⟩, And.left⟩
    exact (State.read_saveOutgoing s b o ho).trans (if_congr (and_congr_right fun _ => saved) rfl rfl)

end

/-- Settles O23: the five laws of an answered change. -/
theorem swapKeepsEveryRamBankContent : Obligations.SwapKeepsEveryRamBankContent := by
  intro s t req h
  have frame := changeRamBank_next_frame h
  have hview : t.rtcWindowActive = false := by rw [frame]
  have hbank : t.ramBankIndex = req.toNat := by rw [frame]
  refine ⟨fun b o => changeRamBank_next_ramByte h b, ?_, fun a => changeRamBank_next_readByte_outside h, hbank, hview⟩
  rw [hview, hbank]
  exact frame

end Sys2Proof.Machine
end

section
/-! ## The RAM-bank selects (spec/42_mbc_dispatch.md R145, R150, R154, spec/41_bank_switch.md R124) -/

namespace Sys2Proof.Machine
variable {s : State} {i : Instr} {v : Byte}

/-- The three selects are one operation, the RAM-bank change to the written value. -/
theorem exec_ramBankSelect {a : Addr} (hi : i = .mbc1Ramb a v ∨ i = .mbc3Ramb a v ∨ i = .mbc5Ramb a v) :
    exec i s = s.whenLive .write (changeRamBank v) := by
  rcases hi with rfl | rfl | rfl <;> rfl

/-- Settles O22: the fault is the change's own, and in range it answers, with the laws of an answered change. -/
theorem ramBankSelectSwapsTheWindow : Obligations.RamBankSelectSwapsTheWindow := by
  intro s a v i hl hi
  rw [exec_ramBankSelect hi, State.whenLive_live hl]
  refine ⟨fun hout => changeRamBank_eq_rangeFault_iff.2 ⟨rfl, hout⟩, fun hin => ?_⟩
  obtain ⟨t, h⟩ := changeRamBank_of_inRange hin
  exact ⟨t, h, changeRamBank_next_frame h, fun b => changeRamBank_next_readByte_inside h,
    fun b => changeRamBank_next_readByte_outside h, fun b o => changeRamBank_next_store h b⟩

/-- The lifecycle check raises no range fault of its own. -/
theorem State.whenLive_eq_rangeFault {op : OpName} {next : State → Result} {bank : Byte}
    (hf : s.whenLive op next = .fault (.ramBankRange bank)) : next s = .fault (.ramBankRange bank) := by
  by_cases hl : s.phase = .live
  · rwa [State.whenLive_live hl] at hf
  · rw [State.whenLive_not_live hl] at hf
    cases hf

/-- Every instruction but INIT and the RAM-bank selects is the lifecycle check before an effect that cannot fault. -/
theorem exec_eq_whenLive_next (hinit : operationOf i ≠ .init) (hsel : ¬selectsRamBank i) :
    ∃ effect : State → State, ∀ s, exec i s = s.whenLive (operationOf i) fun s => .next (effect s) := by
  cases i with
  | init src => exact absurd rfl hinit
  | mbc1Ramb a v | mbc3Ramb a v | mbc5Ramb a v => exact absurd ⟨a, v, by simp⟩ hsel
  | _ => exact ⟨_, fun _ => rfl⟩

/-- A range fault is that of a RAM-bank select, which asked for that bank. -/
theorem exec_rangeFault {bank : Byte} (hf : exec i s = .fault (.ramBankRange bank)) :
    s.config.maxRamBanks ≤ bank.toNat ∧ ∃ a, i = .mbc1Ramb a bank ∨ i = .mbc3Ramb a bank ∨ i = .mbc5Ramb a bank := by
  by_cases hinit : operationOf i = .init
  · obtain ⟨src, rfl⟩ := eq_init_of_operationOf hinit
    by_cases hp : s.phase = .uninit
    · cases (exec_init_of_uninit src hp).symm.trans hf
    · cases (exec_init_of_not_uninit src hp).symm.trans hf
  by_cases hsel : selectsRamBank i
  · obtain ⟨a, v, hi⟩ := hsel
    rw [exec_ramBankSelect hi] at hf
    obtain ⟨rfl, hout⟩ := changeRamBank_eq_rangeFault_iff.1 (State.whenLive_eq_rangeFault hf)
    exact ⟨hout, a, hi⟩
  · obtain ⟨effect, he⟩ := exec_eq_whenLive_next hinit hsel
    rw [he] at hf
    cases State.whenLive_eq_rangeFault hf

/-- Settles O24: of the three selects, `MBC3.RAMB` asks for at most bank 4, and there are at least five. -/
theorem ramBankRangeFaultOnlyFromMbc1AndMbc5 : Obligations.RamBankRangeFaultOnlyFromMbc1AndMbc5 := by
  intro i s bank hwf hf
  obtain ⟨hout, a, rfl | rfl | rfl⟩ := exec_rangeFault hf
  · exact ⟨hout, a, .inl rfl⟩
  · have hle : bank.toNat ≤ 4 := by
      simp only [Instr.wf, Bool.and_eq_true, decide_eq_true_eq] at hwf
      exact hwf.2
    have := Config.five_le_maxRamBanks s.config
    omega
  · exact ⟨hout, a, .inr rfl⟩

end Sys2Proof.Machine
end

section
/-! ## Entering the RTC view (spec/41_bank_switch.md R126) -/

namespace Sys2Proof.Machine
variable (s : State)

@[simp] theorem accessRtc_ramBankStore : (accessRtc s).ramBankStore = s.saveOutgoing.ramBankStore := rfl

theorem exec_mbc3Rtcsel (a : Addr) (v : Byte) {s : State} (hl : s.phase = .live) :
    exec (.mbc3Rtcsel a v) s = .next (accessRtc s) := State.whenLive_live hl .write fun s => .next (accessRtc s)

/-- During the view every live byte is in STORE, where entering the view left it. -/
theorem accessRtc_ramByte (b : Nat) {o : Nat} (ho : o < ramBankSize) : (accessRtc s).ramByte b o = s.ramByte b o := by
  rw [State.ramByte, if_neg (by simp), accessRtc_ramBankStore, State.read_saveOutgoing_eq_ramByte s b o ho]

/-- Settles O25: the select saves the outgoing window, which changes STORE alone, and zeroes the window. -/
theorem rtcSelectSavesTheBankAndZeroesTheWindow : Obligations.RtcSelectSavesTheBankAndZeroesTheWindow := by
  intro s a v hl
  refine ⟨accessRtc s, exec_mbc3Rtcsel a v hl, ?_, fun b => accessRtc_readByte_inside s,
    fun b => accessRtc_readByte_outside s, fun b o => State.read_saveOutgoing s b o, fun b o => accessRtc_ramByte s b⟩
  rw [accessRtc_eq]

end Sys2Proof.Machine
end

section
/-! ## The ROM-bank selects (spec/42_mbc_dispatch.md R143, R148, R153, spec/41_bank_switch.md R120, R121) -/

namespace Sys2Proof.Machine
variable {s : State} {b : BankNo} {i : Instr}

/-- An instruction that answers the ROM-bank change to a bank does what R120 and R121 say of that bank. -/
theorem performsRomBankChange_of_exec_eq (h : exec i s = .next (changeRomBank b s)) : performsRomBankChange i b s := by
  rw [performsRomBankChange, h]
  rcases changeRomBank_cases b s with ⟨hcur, e⟩ | ⟨hne, hin, e⟩ | ⟨hne, hout, e⟩ <;> rw [e]
  · exact ⟨fun _ => rfl, fun hne => absurd hcur hne, fun hne => absurd hcur hne⟩
  · exact ⟨fun hcur => absurd hcur hne, fun _ _ => rfl, fun _ hout => absurd hin (not_lt.2 hout)⟩
  · exact ⟨fun hcur => absurd hcur hne, fun _ hin => absurd hin (not_lt.2 hout), fun _ _ => rfl⟩

theorem exec_mbc1Romb (a : Addr) (v : Byte) (hl : s.phase = .live) :
    exec (.mbc1Romb a v) s = .next (changeRomBank (mbc1Bank s.bankModeFlag s.bankModeData v) s) :=
  State.whenLive_live hl .write fun s => .next (changeRomBank (mbc1Bank s.bankModeFlag s.bankModeData v) s)

theorem exec_mbc3Romb (a : Addr) (v : Byte) (hl : s.phase = .live) :
    exec (.mbc3Romb a v) s = .next (changeRomBank (mbc3Bank v) s) :=
  State.whenLive_live hl .write fun s => .next (changeRomBank (mbc3Bank v) s)

theorem exec_mbc5Romb (a : Addr) (v : Byte) (hl : s.phase = .live) :
    exec (.mbc5Romb a v) s = .next (changeRomBank (mbc5Bank v) s) :=
  State.whenLive_live hl .write fun s => .next (changeRomBank (mbc5Bank v) s)

/-- MBC1's bank in the masks of R143: the stash enters in mode 0 alone. -/
theorem mbc1Bank_eq (mode : BankMode) (stash : BankNo) (v : Byte) : mbc1Bank mode stash v =
    forceNonzero (if mode = .rom then (v &&& 0x1F#8).setWidth 13 ||| stash else (v &&& 0x1F#8).setWidth 13) := by
  cases mode <;> simp [mbc1Bank, lowBits_five]

/-- MBC3's bank in the mask of R148. -/
theorem mbc3Bank_eq (v : Byte) : mbc3Bank v = forceNonzero ((v &&& 0x7F#8).setWidth 13) := by
  rw [mbc3Bank, lowBits_seven]

theorem mbc5Bank_toNat (v : Byte) : (mbc5Bank v).toNat = v.toNat :=
  BitVec.toNat_setWidth_of_le (by decide)

/-- Settles O13: the command is the change to `mbc1Bank`, which is the bank of R143. -/
theorem mbc1RombSelectsTheCombinedBank : Obligations.Mbc1RombSelectsTheCombinedBank := by
  rintro s a v hl _ _ _ rfl rfl rfl
  apply performsRomBankChange_of_exec_eq
  rw [exec_mbc1Romb a v hl, mbc1Bank_eq, forceNonzero]

/-- Settles O14: the command is the change to `mbc3Bank`, which is the bank of R148. -/
theorem mbc3RombSelectsTheMaskedBank : Obligations.Mbc3RombSelectsTheMaskedBank := by
  rintro s a v hl _ _ rfl rfl
  apply performsRomBankChange_of_exec_eq
  rw [exec_mbc3Romb a v hl, mbc3Bank_eq, forceNonzero]

/-- Settles O15: the command is the change to `mbc5Bank`, the one bank with the number that was written. -/
theorem mbc5RombSelectsTheValue : Obligations.Mbc5RombSelectsTheValue := by
  intro s a v hl bank hbank
  obtain rfl : bank = mbc5Bank v := BitVec.eq_of_toNat_eq (hbank.trans (mbc5Bank_toNat v).symm)
  exact performsRomBankChange_of_exec_eq (exec_mbc5Romb a v hl)

end Sys2Proof.Machine
end

section
/-! ## MBC1's stash and mode (spec/42_mbc_dispatch.md R144, R146, R147) -/

namespace Sys2Proof

/-- A word decodes to a command that encodes to it, is well formed and is selected in the context. -/
theorem decode_wr_of_encode {x : DecodeCtx} {word : BitVec 24} {i : Instr} (hwf : i.wf x.config = true)
    (hsel : i.selectedIn x = true) (henc : encode x.config i = .wr word) : decode x (.wr word) = .ok i :=
  henc ▸ decodeOfEncodeGivesTheInstructionBack x i hwf hsel

end Sys2Proof

namespace Sys2Proof.Machine
variable {s : State} {b : BankNo}

theorem exec_mbc1Stash (a : Addr) (v : Byte) (hl : s.phase = .live) :
    exec (.mbc1Stash a v) s = .next { s with bankModeData := stashOf v } :=
  State.whenLive_live hl .write fun s => .next { s with bankModeData := stashOf v }

theorem exec_mbc1Mode (a : Addr) (v : Byte) (hl : s.phase = .live) :
    exec (.mbc1Mode a v) s = .next { s with bankModeFlag := bankModeOf v } :=
  State.whenLive_live hl .write fun s => .next { s with bankModeFlag := bankModeOf v }

/-- Settles O16: the stash is `stashOf`, whose shift on 13 bits loses no bit of a byte. -/
theorem mbc1StashKeepsTheShiftedValue : Obligations.Mbc1StashKeepsTheShiftedValue :=
  fun _ a v hl => ⟨stashOf v, exec_mbc1Stash a v hl, rfl, stashOf_toNat v⟩

theorem bankModeOf_of_low_bit_clear {v : Byte} (h : v &&& 1#8 = 0#8) : bankModeOf v = .rom :=
  bankModeOf_congr (w := 0) (h.trans (by decide))

theorem bankModeOf_of_low_bit_set {v : Byte} (h : v &&& 1#8 = 1#8) : bankModeOf v = .ram :=
  bankModeOf_congr (w := 1) (h.trans (by decide))

/-- Settles O17: the mask is the address range of the command's row, and the mode is the low bit. -/
theorem mbc1ModeTakesTheLowBit : Obligations.Mbc1ModeTakesTheLowBit := by
  refine ⟨fun x word hf hmask => ?_, fun s a v hl => ⟨fun h => ?_, fun h => ?_⟩⟩
  · exact decode_wr_of_encode ((inRange_iff _ _ _).2 ((match_range3 word).1 hmask)) (beq_iff_eq.2 hf)
      (congrArg Request.wr (writeWord_fields word))
  · rw [exec_mbc1Mode a v hl, bankModeOf_of_low_bit_clear h]
  · rw [exec_mbc1Mode a v hl, bankModeOf_of_low_bit_set h]

/-- The change to a bank that exists selects it, also where it is the current one. -/
theorem changeRomBank_of_exists (h : b.toNat < s.romBanks) : changeRomBank b s = { s with romBankIndex := b } := by
  rcases changeRomBank_cases b s with ⟨rfl, e⟩ | ⟨-, -, e⟩ | ⟨-, hout, -⟩
  · exact e
  · exact e
  · exact absurd h (not_lt.2 hout)

/-- An `MBC1.ROMB` whose bank exists selects it and does nothing else. -/
theorem exec_mbc1Romb_of_exists (a : Addr) {v : Byte} (hl : s.phase = .live)
    (hbank : mbc1Bank s.bankModeFlag s.bankModeData v = b) (h : b.toNat < s.romBanks) :
    exec (.mbc1Romb a v) s = .next { s with romBankIndex := b } := by
  rw [exec_mbc1Romb a v hl, hbank, changeRomBank_of_exists h]

/-- Settles O18: the mode write sets the flag alone, and a select in mode 0 takes the stash as it was left; of the six
writes, the second and the last select the stash with the low bits, the fourth the low bits alone. -/
theorem mbc1ModeWriteDoesNotReinterpretTheStash : Obligations.Mbc1ModeWriteDoesNotReinterpretTheStash := by
  refine ⟨fun s m a v hl => exec_mbc1Mode a v hl, ?_, fun s a b c hl hm hbank => ?_⟩
  · rintro s c v _ hl hm rfl hne hbank
    refine exec_mbc1Romb_of_exists c hl ?_ hbank
    rw [mbc1Bank_eq, if_pos hm, forceNonzero, if_neg hne]
  · have stash : stashOf 0x01 = 0x20 := by decide
    have combined : mbc1Bank .rom (stashOf 0x01) 0x03 = 0x23 := by decide
    have alone : mbc1Bank .ram (stashOf 0x01) 0x03 = 0x03 := by decide
    have hbank3 : 0x03 < s.romBanks := by omega
    exact ⟨_, _, _, _, _, _, exec_mbc1Stash b 0x01 hl, stash, rfl,
      exec_mbc1Romb_of_exists (b := 0x23) a hl (hm ▸ combined) hbank, rfl, exec_mbc1Mode c 0x01 hl, rfl,
      exec_mbc1Romb_of_exists (b := 0x03) a hl alone hbank3, rfl, exec_mbc1Mode c 0x00 hl, rfl,
      exec_mbc1Romb_of_exists (b := 0x23) a hl combined hbank, rfl⟩

end Sys2Proof.Machine
end

section
/-! ## The commands without effect, and the reported one (spec/42_mbc_dispatch.md R141, R142, R152, R155, R160) -/

namespace Sys2Proof.Machine

theorem exec_rtcwinW (a : Addr) (v : Byte) {s : State} (hl : s.phase = .live) : exec (.rtcwinW a v) s = .next s :=
  State.whenLive_live hl .write .next

/-- Settles O19: each mask is the address range of the command's row; both commands answer the state they are given. -/
theorem latchAndFamilyNoneWritesChangeNothing : Obligations.LatchAndFamilyNoneWritesChangeNothing := by
  refine ⟨fun x word hmbc2 hunsup hmask => ?_, fun x word hf hlow hmask => ?_, fun s a v hl => ?_⟩
  · have hbelow := (match_range0 word).1 hmask
    refine decode_wr_of_encode ((inRange_iff _ _ _).2 ⟨Nat.zero_le _, hbelow⟩) ?_
      (congrArg Request.wr (writeWord_fields word))
    simp [Instr.selectedIn, hmbc2, hunsup]
  · have hfrom := not_lt.1 (mt (match_range0 word).2 hmask)
    exact decode_wr_of_encode ((inRange_iff _ _ _).2 ⟨hfrom, (match_lowerHalf word).1 hlow⟩) (beq_iff_eq.2 hf)
      (congrArg Request.wr (writeWord_fields word))
  · exact ⟨State.whenLive_live hl .write .next, State.whenLive_live hl .write .next⟩

/-- Settles O20: the latch calls `updateRtcTime`, which does nothing; the other two answer the state they are given. -/
theorem placeholderWritesChangeNothing : Obligations.PlaceholderWritesChangeNothing := by
  intro s a v hl
  exact ⟨State.whenLive_live hl .write fun s => .next (updateRtcTime s), State.whenLive_live hl .write .next,
    exec_rtcwinW a v hl⟩

/-- Settles O21: for the two families the decode does not look at the address, and the command is `State.emit`. -/
theorem unsupportedControllerWriteIsReported : Obligations.UnsupportedControllerWriteIsReported := by
  refine ⟨fun x a v hf ha => ?_, fun s a v hl => ?_⟩
  · rw [decodeWrite_lower x v ha]
    rcases hf with hf | hf <;> simp only [decodeRomRegion, hf]
  · exact State.whenLive_live hl .write fun s => .next (s.emit (.unsupportedController s.controllerKind a v))

end Sys2Proof.Machine
end

section
/-! ## Leaving the RTC view (spec/42_mbc_dispatch.md R150, spec/41_bank_switch.md R123, R126) -/

namespace Sys2Proof.Machine
variable {s t : State} {v : Byte}

/-- From a bank into the RTC view, a second RTC select and back: every byte reads as at the start. -/
theorem readByte_of_rtcView_left (hr : s.rtcWindowActive = false) (hbank : s.ramBankIndex = v.toNat)
    (h : changeRamBank v (accessRtc (accessRtc s)) = .next t) (x : Addr) : t.readByte x = s.readByte x := by
  by_cases hx : inRamWindow x
  · have ho : x.toNat - ramWindowBase < ramBankSize := Nat.sub_lt_left_of_lt_add hx.1 hx.2
    calc t.readByte x
      _ = (accessRtc (accessRtc s)).ramByte v.toNat (x.toNat - ramWindowBase) :=
        changeRamBank_next_readByte_inside h hx
      _ = s.ramByte v.toNat (x.toNat - ramWindowBase) := by rw [accessRtc_ramByte _ _ ho, accessRtc_ramByte _ _ ho]
      _ = s.readByte x := hbank ▸ State.ramByte_selected s hr hx
  · rw [changeRamBank_next_readByte_outside h hx, accessRtc_readByte_outside _ hx, accessRtc_readByte_outside _ hx]

/-- Settles O27: entering the view keeps the live bytes of every bank, the dropped store changes nothing, and the
RAM-bank select shows the live bytes of its bank again. -/
theorem leavingTheRtcViewRestoresTheBank : Obligations.LeavingTheRtcViewRestoresTheBank := by
  intro s a b c d sel again v dropped hl hr hbank hv
  have hl1 : (accessRtc s).phase = .live := by rw [accessRtc_eq]; exact hl
  have hl3 : (accessRtc (accessRtc s)).phase = .live := by rw [accessRtc_eq]; exact hl1
  have hin : v.toNat < (accessRtc (accessRtc s)).config.maxRamBanks :=
    lt_of_le_of_lt hv (Config.five_le_maxRamBanks _)
  obtain ⟨t4, h4⟩ := changeRamBank_of_inRange hin
  have frame := changeRamBank_next_frame h4
  refine ⟨_, _, _, t4, exec_mbc3Rtcsel a sel hl, exec_rtcwinW b dropped hl1, exec_mbc3Rtcsel c again hl1, ?_, ?_, ?_,
    fun x hx => ⟨accessRtc_readByte_inside s hx, accessRtc_readByte_inside (accessRtc s) hx⟩,
    readByte_of_rtcView_left hr hbank h4⟩
  · rw [exec_ramBankSelect (.inr (.inl rfl)), State.whenLive_live hl3, h4]
  · rw [frame]
  · rw [frame, hbank]

end Sys2Proof.Machine
end

section
/-! ## A WRITE below 0x8000 (spec/42_mbc_dispatch.md R140)

What such a write decodes to encodes back to its own address, so the effects that store are ruled out by where they
store, and those that replace the RAM window by the address range of their commands. -/

namespace Sys2Proof

theorem writeWord_inj {a b : Addr} {v w : Byte} : writeWord a v = writeWord b w ↔ a = b ∧ v = w := by
  refine ⟨fun h => ⟨?_, ?_⟩, fun ⟨ha, hv⟩ => by rw [ha, hv]⟩
  · simpa using congrArg wordAddr h
  · simpa using congrArg wordValue h

end Sys2Proof

namespace Sys2Proof.Machine
variable {s t : State} {i : Instr} {c : Config} {a : Addr} {v : Byte}

theorem operationOf_of_encode {word : BitVec 24} (henc : encode c i = .wr word) : operationOf i = .write := by
  cases i with
  | read _ | init _ | free | dump => cases henc
  | _ => rfl

/-- The commands that replace the RAM window have the addresses of `[0x4000,0x6000)` (R84). -/
theorem addr_of_ramWindowSelect (hsel : selectsRamBank i ∨ ∃ b w, i = .mbc3Rtcsel b w) (hwf : i.wf c = true)
    (henc : encode c i = .wr (writeWord a v)) : 0x4000 ≤ a.toNat ∧ a.toNat < 0x6000 := by
  rcases hsel with ⟨b, w, rfl | rfl | rfl⟩ | ⟨b, w, rfl⟩ <;> obtain ⟨rfl, -⟩ := writeWord_inj.1 (Request.wr.inj henc)
  · exact (inRange_iff _ _ b).1 hwf
  · exact (inRange_iff _ _ b).1 (Bool.and_eq_true_iff.1 hwf).1
  · exact (inRange_iff _ _ b).1 hwf
  · exact (inRange_iff _ _ b).1 (Bool.and_eq_true_iff.1 hwf).1

/-- The commands that store have addresses from 0x8000 on (R84), where R6 places the special registers. -/
theorem le_addr_of_storingCommand (hi : (∃ b w, i = .storeW b w ∨ i = .hramW b w) ∨
      ∃ w, i = .timerW w ∨ i = .inputW w ∨ i = .serialW w ∨ i = .dmaW w)
    (hwf : i.wf c = true) (henc : encode c i = .wr (writeWord a v)) : 0x8000 ≤ a.toNat := by
  rcases hi with ⟨b, w, rfl | rfl⟩ | ⟨w, rfl | rfl | rfl | rfl⟩ <;>
    obtain ⟨rfl, -⟩ := writeWord_inj.1 (Request.wr.inj henc)
  · exact ((storeW_wf_iff w c).1 hwf).1.1
  · have := ((inRange_iff _ _ b).1 hwf).1
    omega
  · exact (Config.timer_placed c).1
  · exact (Config.input_placed c).1
  · exact (Config.serial_placed c).1
  · exact (Config.dma_placed c).1

/-- Below 0x8000 an effect leaves the address space and STORE, or replaces the RAM window. -/
theorem Effect.kept_of_romRegion (h : Effect s t i) (hwf : i.wf s.config = true)
    (henc : encode s.config i = .wr (writeWord a v)) (ha : a.toNat < 0x8000) :
    (t.addressSpace = s.addressSpace ∧ t.ramBankStore = s.ramBankStore) ∨
    ((0x4000 ≤ a.toNat ∧ a.toNat < 0x6000) ∧ ∀ b, ¬inRamWindow b → t.readByte b = s.readByte b) := by
  cases h with
  | unchanged _ same => exact .inl ⟨same ▸ rfl, same ▸ rfl⟩
  | replied _ query _ => simp [operationOf_of_encode henc] at query
  | reported _ _ ev => exact .inl ⟨ev ▸ rfl, ev ▸ rfl⟩
  | romBank b _ _ chg => exact .inl (by simp [chg])
  | stashed _ _ upd => exact .inl ⟨upd ▸ rfl, upd ▸ rfl⟩
  | mode _ _ upd => exact .inl ⟨upd ▸ rfl, upd ▸ rfl⟩
  | ramBank w sel _ swap =>
    exact .inr ⟨addr_of_ramWindowSelect (.inl sel) hwf henc, fun b hb => swap ▸ swapRamBank_readByte_outside _ s hb⟩
  | rtc b w view =>
    exact .inr ⟨addr_of_ramWindowSelect (.inr ⟨b, w, rfl⟩) hwf henc,
      fun b hb => view ▸ accessRtc_readByte_outside s hb⟩
  | stored b w which _ =>
    refine absurd (le_addr_of_storingCommand ?_ hwf henc) (not_le.2 ha)
    rcases which with ⟨w, rfl⟩ | ⟨-, -, w, rfl⟩ | ⟨-, w, rfl⟩ | ⟨-, w, rfl⟩
    · exact .inl ⟨b, w, .inl rfl⟩
    · exact .inr ⟨w, .inl rfl⟩
    · exact .inr ⟨w, .inr (.inl rfl)⟩
    · exact .inr ⟨w, .inr (.inr (.inl rfl))⟩
  | copied w _ =>
    exact absurd (le_addr_of_storingCommand (.inr ⟨w, .inr (.inr (.inr rfl))⟩) hwf henc) (not_le.2 ha)
  | scanned b w _ => exact absurd (le_addr_of_storingCommand (.inl ⟨b, w, .inr rfl⟩) hwf henc) (not_le.2 ha)

/-- A byte outside the ROM window does not depend on the selected ROM bank. -/
theorem State.readByte_congr_outside_romWindow (hc : t.cartridgeHandle = s.cartridgeHandle)
    (hm : t.addressSpace = s.addressSpace) (ha : ¬(0x4000 ≤ a.toNat ∧ a.toNat < 0x8000)) :
    t.readByte a = s.readByte a := by
  rcases Nat.lt_or_ge a.toNat 0x8000 with hlow | hup
  · cases hs : s.cartridgeHandle with
    | none => rw [State.readByte_anonymous hs, State.readByte_anonymous (hc.trans hs), hm]
    | some img => rw [State.readByte_lower_rom hs (by omega), State.readByte_lower_rom (hc.trans hs) (by omega)]
  · rw [State.readByte_upper s hup, State.readByte_upper t hup, hm]

/-- Settles O53: the effect of such a write leaves the address space and STORE, or it replaces the RAM window, which lies
above the ROM region; only HRAM.W's scan releases blocks. -/
theorem romRegionWriteStoresNothing : Obligations.RomRegionWriteStoresNothing := by
  intro s t a v ha he
  have hwf := (decodeWrite_wf_selectedIn s.decodeCtx v a).1
  have henc := encode_decodeWrite s.decodeCtx a v
  have hop := operationOf_of_encode henc
  obtain ⟨-, effect⟩ := exec_effect (by simp [hop]) (by simp [hop]) he
  obtain ⟨-, -, -, -, hcart, -⟩ := effect.keeps
  have hscan (b w) : decodeWrite s.decodeCtx a v ≠ .hramW b w := fun e =>
    absurd (le_addr_of_storingCommand (.inl ⟨b, w, .inr e⟩) hwf henc) (not_le.2 ha)
  have table := onlyHighRamWritesReleaseBlocks _ s t hscan he
  rcases effect.kept_of_romRegion hwf henc ha with ⟨hspace, hstore⟩ | ⟨haddr, houtside⟩
  · exact ⟨fun b _ => State.readByte_congr_outside_romWindow hcart hspace,
      fun hbank b _ => State.readByte_congr hcart hbank (by rw [hspace]), .inl ⟨hspace, hstore⟩, table⟩
  · exact ⟨fun b hb _ => houtside b hb,
      fun _ b hb => houtside b fun hin => absurd (inRamWindow_upper hin) (not_le.2 hb), .inr haddr, table⟩

end Sys2Proof.Machine
end

section
/-! ## The commands that store one byte (spec/43_register_interceptor.md R170 to R173)

Each is `State.memWrite` at one address from 0x8000 on, so each has the frame of that store. -/

namespace Sys2Proof.Machine
variable {s : State} {i : Instr} {a : Addr} {v : Byte}

/-- What a command that stores a byte from 0x8000 on completes with: the byte, every other byte as before, and no change
besides the address space. -/
theorem completes_of_exec_eq_memWrite (he : exec i s = .next (s.memWrite a v)) (hm : Memory.wf s.addressSpace)
    (ha : 0x8000 ≤ a.toNat) : ∃ t, exec i s = .next t ∧ t = { s with addressSpace := t.addressSpace } ∧
      t.readByte a = v ∧ ∀ b, b ≠ a → t.readByte b = s.readByte b :=
  ⟨_, he, rfl, State.readByte_memWrite_same hm ha v, fun _ => State.readByte_memWrite_other s v⟩

section
variable (v) (hl : s.phase = .live)
include hl

theorem exec_timerW : exec (.timerW v) s = .next (s.memWrite s.config.addrTimerReset 0) :=
  State.whenLive_live hl .write fun s => .next (s.memWrite s.config.addrTimerReset 0)

theorem exec_inputW :
    exec (.inputW v) s = .next (s.memWrite s.config.addrInputPoll (inputByte s.inputs.buttons v)) :=
  State.whenLive_live hl .write fun s => .next (s.memWrite s.config.addrInputPoll (inputByte s.inputs.buttons v))

theorem exec_serialW : exec (.serialW v) s = .next (s.memWrite s.config.addrSerialData v) :=
  State.whenLive_live hl .write fun s => .next (s.memWrite s.config.addrSerialData v)

theorem exec_storeW (a : Addr) : exec (.storeW a v) s = .next (s.memWrite a v) :=
  State.whenLive_live hl .write fun s => .next (s.memWrite a v)

end

/-- Settles O29: SERIAL.W is the store of the written byte. -/
theorem serialWriteStoresTheByte : Obligations.SerialWriteStoresTheByte :=
  fun s v hl hm => completes_of_exec_eq_memWrite (exec_serialW v hl) hm (Config.serial_placed s.config).1

/-- A word whose masked bits are an address's pattern is that address above the word's value. -/
theorem writeWord_of_match_addr {word : BitVec 24} (h : word &&& 0xFFFF00 = addrPattern a) :
    writeWord a (wordValue word) = word := by
  rw [← (match_addr word a).1 h, writeWord_fields]

/-- Settles O30: the mask is the register's address, and TIMER.W is the store of zero. -/
theorem timerWriteClearsTheByte : Obligations.TimerWriteClearsTheByte :=
  ⟨fun _ _ hmask => decode_wr_of_encode rfl rfl (congrArg Request.wr (writeWord_of_match_addr hmask)),
    fun s v hl hm => completes_of_exec_eq_memWrite (exec_timerW v hl) hm (Config.timer_placed s.config).1⟩

/-- A store into the window outside the RTC view is a store into the selected bank (R62). -/
theorem State.ramByte_memWrite_selected (hm : Memory.wf s.addressSpace) (hr : s.rtcWindowActive = false)
    (hw : inRamWindow a) (v : Byte) : (s.memWrite a v).ramByte s.ramBankIndex (a.toNat - ramWindowBase) = v :=
  (State.ramByte_selected (s.memWrite a v) hr hw).trans (State.readByte_memWrite_same hm (inRamWindow_upper hw) v)

/-- Settles O28: the mask and the conditions are those of the row STORE.W, and the command is the store of the written
byte, which in the window is the live byte of the selected bank. -/
theorem storeWritesOneByte : Obligations.StoreWritesOneByte := by
  refine ⟨fun x word hmask hbelow hplain hview => ?_, fun s a v hl hm hwf => ?_⟩
  · have hwf := (storeW_wf_iff (wordValue word) x.config).2 ⟨⟨(match_upperHalf word).1 hmask, hbelow⟩, hplain⟩
    have hsel := (storeW_selectedIn_iff x (wordValue word)).2 fun hwin hrtc => hview ⟨hwin, hrtc⟩
    exact decode_wr_of_encode hwf hsel (congrArg Request.wr (writeWord_fields word))
  · have ha := ((storeW_wf_iff v _).1 hwf).1.1
    exact ⟨_, exec_storeW v hl a, rfl, State.readByte_memWrite_same hm ha v,
      fun b => State.readByte_memWrite_other s v, fun hw hr => State.ramByte_memWrite_selected hm hr hw v⟩

end Sys2Proof.Machine
end

section
/-! ## The input poll (spec/43_register_interceptor.md R171)

The model computes the groups on four bits; R171 writes them on bytes. -/

namespace Sys2Proof.Machine

theorem getLsbD_four_iff (v : Byte) : v.getLsbD 4 = true ↔ v &&& 0x10#8 ≠ 0 := by
  revert v; decide

theorem getLsbD_five_iff (v : Byte) : v.getLsbD 5 = true ↔ v &&& 0x20#8 ≠ 0 := by
  revert v; decide

theorem directionPad_setWidth (buttons : Byte) : (buttons.extractLsb' 0 4).setWidth 8 = buttons &&& 0x0F#8 := by
  revert buttons; decide

theorem actionButtons_setWidth (buttons : Byte) : (buttons.extractLsb' 4 4).setWidth 8 = buttons >>> 4 := by
  revert buttons; decide

/-- The requested groups as a byte, each asked for by a clear bit. -/
theorem requestedButtons_setWidth (buttons v : Byte) : (requestedButtons buttons v).setWidth 8 =
    (if v &&& 0x10#8 = 0 then buttons &&& 0x0F#8 else 0) ||| (if v &&& 0x20#8 = 0 then buttons >>> 4 else 0) := by
  simp only [requestedButtons, getLsbD_four_iff, getLsbD_five_iff, ite_not, BitVec.setWidth_or,
    apply_ite (BitVec.setWidth 8), directionPad_setWidth, actionButtons_setWidth, BitVec.setWidth_zero,
    BitVec.ofNat_eq_ofNat]

/-- Four bits, complemented below the high nibble 0xF. -/
theorem highNibble_append_not (n : BitVec 4) : 0xF#4 ++ ~~~n = 0xF0#8 ||| (~~~(n.setWidth 8) &&& 0x0F#8) := by
  revert n; decide

/-- Settles O31: INPUT.W is the store of `inputByte`, which is the byte of R171. -/
theorem inputWriteStoresTheComplementedButtons : Obligations.InputWriteStoresTheComplementedButtons := by
  rintro s v hl hm _ _ _ rfl rfl rfl
  rw [← requestedButtons_setWidth, ← highNibble_append_not]
  exact completes_of_exec_eq_memWrite (exec_inputW v hl) hm (Config.input_placed s.config).1

end Sys2Proof.Machine
end

section
/-! ## The DMA copy (spec/43_register_interceptor.md R174, R175)

The trigger byte is stored first, so the copy reads the source as that store left it. -/

namespace Sys2Proof.Machine
variable {s t : State} {v : Byte}

theorem exec_dmaW (v : Byte) (hl : s.phase = .live) : exec (.dmaW v) s =
    .next ((s.memWrite s.config.addrDmaTrigger v).copy oamBase (dmaSource v) dmaLength) :=
  State.whenLive_live hl .write fun s =>
    .next ((s.memWrite s.config.addrDmaTrigger v).copy oamBase (dmaSource v) dmaLength)

theorem oamAddr_toNat {k : Nat} (hk : k < 160) : (BitVec.ofNat 16 (0xFE00 + k)).toNat = 0xFE00 + k :=
  Nat.mod_eq_of_lt (by omega)

/-- The addresses of the region, counted from its base. -/
theorem inOam_iff (b : Addr) : inOam b ↔ ∃ k < 160, b = BitVec.ofNat 16 (0xFE00 + k) := by
  simp only [inOam, oamBase, dmaLength]
  constructor
  · rintro ⟨hlo, hhi⟩
    have hk : b.toNat - 0xFE00 < 160 := by omega
    exact ⟨_, hk, BitVec.eq_of_toNat_eq (by rw [oamAddr_toNat hk]; omega)⟩
  · rintro ⟨k, hk, rfl⟩
    rw [oamAddr_toNat hk]
    omega

/-- Every byte of the source has an address (R175 (a)). -/
theorem exists_dmaSource_addr (v : Byte) {k : Nat} (hk : k < 160) : ∃ src : Addr, src.toNat = v.toNat * 256 + k :=
  ⟨_, dmaSource_add_toNat v hk⟩

section
variable (h : exec (.dmaW v) s = .next t)
include h

theorem eq_copy_of_exec_dmaW :
    t = (s.memWrite s.config.addrDmaTrigger v).copy oamBase (dmaSource v) dmaLength := by
  rw [exec, execDmaW] at h
  obtain ⟨-, he⟩ := State.whenLive_eq_next.1 h
  exact (Host.Outcome.next.inj he).symm

/-- Outside the region only the trigger byte changes. -/
theorem dmaW_next_readByte_outside {b : Addr} (hb : ¬inOam b) :
    t.readByte b = (s.memWrite s.config.addrDmaTrigger v).readByte b := by
  rw [eq_copy_of_exec_dmaW h]
  exact State.readByte_copy_outside _ hb

/-- Byte `k` of the region is byte `k` of the source, as it reads once the trigger byte is stored. -/
theorem dmaW_next_readByte_inside {k : Nat} (hk : k < 160) {src : Addr} (hsrc : src.toNat = v.toNat * 256 + k) :
    t.readByte (BitVec.ofNat 16 (0xFE00 + k)) = (s.memWrite s.config.addrDmaTrigger v).readByte src := by
  obtain rfl : src = dmaSource v + BitVec.ofNat 16 k :=
    BitVec.eq_of_toNat_eq (hsrc.trans (dmaSource_add_toNat v hk).symm)
  rw [eq_copy_of_exec_dmaW h]
  exact State.readByte_copy_inside _ hk (oamAddr_toNat hk) (by decide)

/-- A source byte that is not the trigger is copied as it read before the command. -/
theorem dmaW_next_readByte_of_ne {k : Nat} (hk : k < 160) {src : Addr} (hsrc : src.toNat = v.toNat * 256 + k)
    (hne : src ≠ s.config.addrDmaTrigger) : t.readByte (BitVec.ofNat 16 (0xFE00 + k)) = s.readByte src :=
  (dmaW_next_readByte_inside h hk hsrc).trans (State.readByte_memWrite_other s v hne)

theorem dmaW_next_readByte_trigger (hm : Memory.wf s.addressSpace) : t.readByte s.config.addrDmaTrigger = v := by
  obtain ⟨hup, -, -, hoam⟩ := Config.dma_placed s.config
  rw [dmaW_next_readByte_outside h hoam, State.readByte_memWrite_same hm hup]

end

/-- Settles O32: the mask is the trigger's address; the trigger and every byte outside the region are as the store left
them, the region as the source then read. -/
theorem dmaWriteCopiesTheSource : Obligations.DmaWriteCopiesTheSource := by
  refine ⟨fun x word hmask => decode_wr_of_encode rfl rfl (congrArg Request.wr (writeWord_of_match_addr hmask)),
    fun s v hl hm => ?_⟩
  have he := exec_dmaW v hl
  refine ⟨_, he, rfl, dmaW_next_readByte_trigger he hm, fun k hk src hsrc => ?_, fun b hne hb => ?_⟩
  · rw [dmaW_next_readByte_inside he hk hsrc]
    split
    case isTrue htrigger => rw [htrigger, State.readByte_memWrite_same hm (Config.dma_placed s.config).1]
    case isFalse hne => exact State.readByte_memWrite_other s v hne
  · exact (dmaW_next_readByte_outside he hb).trans (State.readByte_memWrite_other s v hne)

/-- Settles O33: but for the trigger itself, byte `k` of the region is the byte that the source address read before the
command: a byte of the region, of the image, or of the window in the RTC view. -/
theorem dmaCornerCases : Obligations.DmaCornerCases := by
  intro s t v hinv h
  obtain ⟨hup, -, hwin, hoam⟩ := Config.dma_placed s.config
  have romSource {src : Addr} (hlow : src.toNat < 0x8000) : src ≠ s.config.addrDmaTrigger := fun e =>
    absurd (e ▸ hup) (not_le.2 hlow)
  refine ⟨fun k hk => ?_, ?_, fun img hc hv k hk => ?_, fun img hc hlo hhi k hk => ?_, ?_, ?_⟩
  · obtain ⟨src, hsrc⟩ := exists_dmaSource_addr v hk
    exact hsrc ▸ src.isLt
  · rintro rfl b hb
    obtain ⟨k, hk, rfl⟩ := (inOam_iff b).1 hb
    exact dmaW_next_readByte_of_ne h hk (oamAddr_toNat hk) fun e => hoam (e ▸ hb)
  · obtain ⟨src, hsrc⟩ := exists_dmaSource_addr v hk
    have hlow : src.toNat < 0x4000 := by omega
    rw [dmaW_next_readByte_of_ne h hk hsrc (romSource (by omega)), State.readByte_lower_rom hc hlow, hsrc]
  · obtain ⟨src, hsrc⟩ := exists_dmaSource_addr v hk
    have hfrom : 0x4000 ≤ src.toNat := by omega
    have hbelow : src.toNat < 0x8000 := by omega
    rw [dmaW_next_readByte_of_ne h hk hsrc (romSource hbelow), State.readByte_rom_window hc hfrom hbelow, hsrc]
  · intro hrtc hlo hhi b hb
    obtain ⟨k, hk, rfl⟩ := (inOam_iff b).1 hb
    obtain ⟨src, hsrc⟩ := exists_dmaSource_addr v hk
    have hview : inRamWindow src := by
      rw [inRamWindow, ramWindowBase, ramBankSize]
      omega
    rw [dmaW_next_readByte_of_ne h hk hsrc fun e => hwin (e ▸ hview)]
    exact hinv.rtcReadsZero hrtc src hview
  · rintro htrigger rfl
    have hsrc : s.config.addrDmaTrigger.toNat = (0xFF#8).toNat * 256 + 0x46 := by rw [htrigger]; rfl
    exact (dmaW_next_readByte_inside h (by decide) hsrc).trans (State.readByte_memWrite_same hinv.spaceWf hup _)

end Sys2Proof.Machine
end

section
/-! ## High RAM and the invalidation scan (spec/44_invalidation.md R190 to R193)

One predicate says which slots a scan releases; the scan zeroes those entries and calls those slots in order. -/

namespace Sys2Proof.Machine
variable {s t : State} {a : Addr} {v : Byte} {i : Slot}

/-- The scan for a write at `a` releases this slot: it is below the bound and its entry is hit. -/
def State.scanReleases (s : State) (a : Addr) (i : Slot) : Bool :=
  decide (i.val < scanBound s.config a) && s.blockTable[i].hit a

theorem highRamOffset_eq (a : Addr) : highRamOffset a = a.toNat - 0xFF80 := rfl

theorem scanBound_eq (c : Config) (a : Addr) :
    scanBound c a = (a.toNat - 0xFF80) + if c.invalScanInclusive then 1 else 0 := by
  rw [scanBound, highRamOffset_eq]
  split
  · rfl
  · exact (Nat.add_zero _).symm

/-- A slot below the bound, in the terms of R191 and R192. -/
theorem lt_scanBound_iff {c : Config} {n : Nat} (ha : 0xFF80 ≤ a.toNat) : n < scanBound c a ↔
    n + 0xFF80 < a.toNat ∨ (c.invalScanInclusive = true ∧ n + 0xFF80 = a.toNat) := by
  rw [scanBound_eq]
  cases c.invalScanInclusive
  · simp only [Bool.false_eq_true, if_false, false_and, or_false]
    omega
  · simp only [if_true, true_and]
    omega

theorem BlockEntry.hit_iff {e : BlockEntry} :
    e.hit a = true ↔ e.executionCount ≠ 0 ∧ a.toNat < e.endAddress.toNat := by
  simp [BlockEntry.hit]

theorem State.scanReleases_iff (ha : 0xFF80 ≤ a.toNat) : s.scanReleases a i = true ↔
    (i.val + 0xFF80 < a.toNat ∨ (s.config.invalScanInclusive = true ∧ i.val + 0xFF80 = a.toNat)) ∧
      s.blockTable[i].executionCount ≠ 0 ∧ a.toNat < s.blockTable[i].endAddress.toNat := by
  rw [State.scanReleases, Bool.and_eq_true, decide_eq_true_iff, lt_scanBound_iff ha, BlockEntry.hit_iff]

@[simp] theorem invalidationScan_addressSpace : (invalidationScan a s).addressSpace = s.addressSpace := by
  rw [invalidationScan_frame]
@[simp] theorem invalidationScan_config : (invalidationScan a s).config = s.config := by
  rw [invalidationScan_frame]

theorem invalidationScan_blockTable (a : Addr) (s : State) (i : Slot) : (invalidationScan a s).blockTable[i] =
    if s.scanReleases a i then { s.blockTable[i] with executionCount := 0 } else s.blockTable[i] := by
  refine ((foldl_scanSlot a _ ((List.nodup_finRange _).filter _) s).1 i).trans (if_congr ?_ rfl rfl)
  simp [State.scanReleases]

theorem invalidationScan_releaseCalls (a : Addr) (s : State) : (invalidationScan a s).releaseCalls =
    s.releaseCalls ++ (List.finRange blockSlots).filter (s.scanReleases a) := by
  refine (foldl_scanSlot a _ ((List.nodup_finRange _).filter _) s).2.trans ?_
  rw [List.filter_filter]
  exact congrArg _ (List.filter_congr fun i _ => Bool.and_comm _ _)

theorem invalidationScan_keeps_entry (h : s.scanReleases a i = false) :
    (invalidationScan a s).blockTable[i] = s.blockTable[i] := by
  rw [invalidationScan_blockTable, h]
  rfl

/-- A scan that releases no slot leaves the table and the calls as they were. -/
theorem invalidationScan_of_none_released (h : ∀ i, s.scanReleases a i = false) :
    (invalidationScan a s).blockTable = s.blockTable ∧ (invalidationScan a s).releaseCalls = s.releaseCalls := by
  constructor
  · exact Vector.ext fun i hi => invalidationScan_keeps_entry (h ⟨i, hi⟩)
  · rw [invalidationScan_releaseCalls, List.filter_eq_nil_iff.2 fun i _ => by simp [h i], List.append_nil]

/-- After a scan the same scan releases nothing: what it would release has count zero by now (R193 (f)). -/
theorem invalidationScan_scanReleases (a : Addr) (s : State) (i : Slot) :
    (invalidationScan a s).scanReleases a i = false := by
  rw [State.scanReleases, invalidationScan_config, invalidationScan_blockTable]
  cases h : s.scanReleases a i
  · exact h
  · simp

/-- A scan releases at most as many slots as it visits (R193 (h)). -/
theorem length_scanReleases_le (s : State) (a : Addr) :
    ((List.finRange blockSlots).filter (s.scanReleases a)).length ≤ scanBound s.config a := by
  have visited : ((List.finRange blockSlots).filter (s.scanReleases a)).map Fin.val ⊆
      List.range (scanBound s.config a) := by
    intro n hn
    obtain ⟨i, hi, rfl⟩ := List.mem_map.1 hn
    have hr : s.scanReleases a i = true := (List.mem_filter.1 hi).2
    rw [State.scanReleases, Bool.and_eq_true, decide_eq_true_iff] at hr
    exact List.mem_range.2 hr.1
  have distinct := ((List.nodup_finRange blockSlots).filter (s.scanReleases a)).map Fin.val_injective
  simpa using (distinct.subperm visited).length_le

/-- Every scan that visits a slot is for that slot's address or a later one, so no scan releases an entry that ends at
or before its own start (R193 (d)). -/
theorem State.not_scanReleases_of_end_le (ha : 0xFF80 ≤ a.toNat)
    (hend : s.blockTable[i].endAddress.toNat ≤ 0xFF80 + i.val) : s.scanReleases a i = false := by
  refine Bool.eq_false_iff.2 fun h => ?_
  obtain ⟨hbound, -, hcovers⟩ := (State.scanReleases_iff ha).1 h
  omega

/-- At the first address of high RAM an exclusive scan visits no slot (R193 (a)). -/
theorem State.not_scanReleases_at_base (hincl : s.config.invalScanInclusive = false) (i : Slot) :
    s.scanReleases 0xFF80 i = false := by
  refine Bool.eq_false_iff.2 fun h => ?_
  obtain ⟨hbelow | ⟨hinclusive, -⟩, -⟩ := (State.scanReleases_iff (by decide)).1 h
  · exact absurd hbelow (not_lt.2 (Nat.le_add_left _ _))
  · exact absurd hinclusive (by simp [hincl])

theorem exec_hramW (a : Addr) (v : Byte) (hl : s.phase = .live) :
    exec (.hramW a v) s = .next (invalidationScan a (s.memWrite a v)) :=
  State.whenLive_live hl .write fun s => .next (invalidationScan a (s.memWrite a v))

theorem eq_scan_of_exec_hramW (h : exec (.hramW a v) s = .next t) : t = invalidationScan a (s.memWrite a v) := by
  rw [exec, execHramW] at h
  obtain ⟨-, he⟩ := State.whenLive_eq_next.1 h
  exact (Host.Outcome.next.inj he).symm

/-- Settles O34: the mask is the address range of the command's row, and the scan changes neither the address space nor
what a byte reads. -/
theorem highRamWriteStoresTheByte : Obligations.HighRamWriteStoresTheByte := by
  refine ⟨fun x word hmask => ?_, fun s a v hl hm ha => ?_⟩
  · have hwf : (Instr.hramW (wordAddr word) (wordValue word)).wf x.config = true :=
      (inRange_iff _ _ _).2 ⟨(match_highRam word).1 hmask, (wordAddr word).isLt⟩
    exact decode_wr_of_encode hwf rfl (congrArg Request.wr (writeWord_fields word))
  · refine ⟨_, exec_hramW a v hl, ?_, ?_, ?_, fun b hb => ?_⟩
    · rw [invalidationScan_frame]
      rfl
    · rw [invalidationScan_addressSpace]
      rfl
    · rw [invalidationScan_readByte, State.readByte_memWrite_same hm (by omega)]
    · rw [invalidationScan_readByte, State.readByte_memWrite_other s v hb]

/-- Settles O35: R191's condition determines `State.scanReleases`, which the store of the byte does not affect. -/
theorem scanReleasesExactlyTheCoveringBlocks : Obligations.ScanReleasesExactlyTheCoveringBlocks := by
  intro s t a v ha h hit hiff
  obtain rfl := eq_scan_of_exec_hramW h
  obtain rfl : hit = s.scanReleases a :=
    funext fun i => Bool.eq_iff_iff.2 ((hiff i).trans (State.scanReleases_iff ha).symm)
  exact ⟨invalidationScan_blockTable a (s.memWrite a v), invalidationScan_releaseCalls a (s.memWrite a v)⟩

/-- Settles O36: in the first three cases no slot is released, and the calls are the released slots. -/
theorem scanCornerCases : Obligations.ScanCornerCases := by
  intro s t u a v w ha ht hu
  obtain rfl := eq_scan_of_exec_hramW ht
  obtain rfl := eq_scan_of_exec_hramW hu
  refine ⟨?_, fun i hend => ?_, ?_⟩
  · rintro rfl hincl
    exact invalidationScan_of_none_released (s := s.memWrite _ v) (State.not_scanReleases_at_base hincl)
  · exact invalidationScan_keeps_entry (s := s.memWrite a v) (State.not_scanReleases_of_end_le ha hend)
  · obtain ⟨htable, hcalls⟩ := invalidationScan_of_none_released
      (s := (invalidationScan a (s.memWrite a v)).memWrite a w) (invalidationScan_scanReleases a _)
    refine ⟨htable, hcalls, ?_⟩
    have hlength := length_scanReleases_le (s.memWrite a v) a
    rw [scanBound_eq] at hlength
    rw [invalidationScan_releaseCalls, List.length_append, Nat.add_assoc]
    exact Nat.add_le_add_left hlength _

end Sys2Proof.Machine
end

section
/-! ## Completion in phase LIVE (spec/60_exceptions.md R200) -/

namespace Sys2Proof.Machine
variable {s : State} {i : Instr} {a : Addr} {v : Byte}

/-- A RAM-bank select needs its bank checked for `MBC1.RAMB` and `MBC5.RAMB` only: well-formed, `MBC3.RAMB` raises no
range fault (R124). -/
theorem ramBankSelect_inRange (hl : s.phase = .live) (hwf : i.wf s.config = true)
    (hi : i = .mbc1Ramb a v ∨ i = .mbc3Ramb a v ∨ i = .mbc5Ramb a v)
    (hin : ∀ a v, i = .mbc1Ramb a v ∨ i = .mbc5Ramb a v → v.toNat < s.config.maxRamBanks) :
    v.toNat < s.config.maxRamBanks := by
  by_contra hout
  have hfault := (ramBankSelectSwapsTheWindow s a v i hl hi).1 (not_lt.1 hout)
  obtain ⟨-, b, hb⟩ := ramBankRangeFaultOnlyFromMbc1AndMbc5 i s v hwf hfault
  exact hout (hin b v hb)

/-- Settles O45: a RAM-bank select is the change to a bank in range, which answers; every other operation is the
lifecycle check before an effect that cannot fault. -/
theorem liveOperationsComplete : Obligations.LiveOperationsComplete := by
  intro i s hl hwf hinit hin
  by_cases hsel : selectsRamBank i
  · obtain ⟨a, v, hi⟩ := hsel
    rw [exec_ramBankSelect hi, State.whenLive_live hl]
    exact changeRamBank_of_inRange (ramBankSelect_inRange hl hwf hi hin)
  · obtain ⟨effect, he⟩ := exec_eq_whenLive_next hinit hsel
    exact ⟨effect s, by rw [he, State.whenLive_live hl]⟩

end Sys2Proof.Machine
end

section
/-! ## FREE keeps nothing, and no WRITE without a cartridge reaches the lower half (spec/70_reset_and_hazards.md R236,
R237) -/

namespace Sys2Proof.Machine
variable {s s' t : State} {i : Instr} {a b : Addr}

/-- FREE's answer is computed from what is left without the nine items. -/
theorem exec_free_congr (hl : s.phase = .live) (hl' : s'.phase = .live) (h : s.withoutItems = s'.withoutItems) :
    exec .free s = exec .free s' := by
  have hinputs : s.inputs = s'.inputs := by simpa using congrArg State.inputs h
  rw [exec_free_of_live hl, exec_free_of_live hl', h, hinputs]

/-- Phase FREED accepts no operation, INIT included. -/
theorem exec_of_freed (i : Instr) (hp : s.phase = .freed) : exec i s = .fault (.lifecycle (operationOf i) .freed) := by
  obtain ⟨hinitFaults, hotherFaults, -⟩ := operationsOutOfPhaseFault i s
  rw [hp] at hinitFaults hotherFaults
  by_cases hinit : operationOf i = .init
  · rw [hinitFaults hinit nofun, hinit]
  · exact hotherFaults hinit nofun

/-- Settles O9: FREE's answer does not look at the items, and it is in phase FREED. -/
theorem nothingOfTheInstanceSurvivesFree : Obligations.NothingOfTheInstanceSurvivesFree := by
  intro s s' hl hl' h
  refine ⟨exec_free_congr hl hl' h, fun t i he => ?_⟩
  obtain ⟨-, r, rfl⟩ := exec_free_cases he
  exact exec_of_freed i rfl

/-- A store from 0x8000 on changes no byte of the ROM region. -/
theorem State.readByte_memWrite_lower (s : State) (v : Byte) (ha : 0x8000 ≤ a.toNat) (hb : b.toNat < 0x8000) :
    (s.memWrite a v).readByte b = s.readByte b :=
  State.readByte_memWrite_other s v fun e => by rw [e] at hb; omega

/-- As long as the selected ROM bank stays, no effect changes what the ROM region shows: every store, the copy and the
RAM window lie above it. -/
theorem Effect.keeps_romRegion (h : Effect s t i) (hwf : i.wf s.config = true)
    (hbank : t.romBankIndex = s.romBankIndex) (hb : b.toNat < 0x8000) : t.readByte b = s.readByte b := by
  have hwindow : ¬inRamWindow b := fun hin => absurd (inRamWindow_upper hin) (not_le.2 hb)
  cases h with
  | unchanged _ same => rw [same]
  | replied _ _ ans => subst ans; rfl
  | reported _ _ ev => subst ev; rfl
  | romBank bank _ _ chg => exact State.readByte_congr (by simp [chg]) hbank (by simp [chg])
  | stashed _ _ upd => subst upd; rfl
  | mode _ _ upd => subst upd; rfl
  | ramBank v _ _ swap => exact swap ▸ swapRamBank_readByte_outside _ s hwindow
  | rtc _ _ view => exact view ▸ accessRtc_readByte_outside s hwindow
  | stored a w which st =>
    refine st ▸ State.readByte_memWrite_lower s w ?_ hb
    rcases which with ⟨v, rfl⟩ | ⟨rfl, -, -⟩ | ⟨rfl, -⟩ | ⟨rfl, -⟩
    · exact ((storeW_wf_iff v _).1 hwf).1.1
    · exact (Config.timer_placed _).1
    · exact (Config.input_placed _).1
    · exact (Config.serial_placed _).1
  | copied v cp =>
    have hoam : ¬inOam b := fun hin => by simp only [inOam, oamBase] at hin; omega
    rw [cp, State.readByte_copy_outside _ hoam, State.readByte_memWrite_lower s v (Config.dma_placed _).1 hb]
  | scanned a v sc =>
    have ha := ((inRange_iff _ _ a).1 hwf).1
    rw [sc, invalidationScan_readByte, State.readByte_memWrite_lower s v (by omega) hb]

/-- Without a cartridge the family is NONE (R104), whose commands switch no bank (R129). -/
theorem State.Inv.banks_of_anonymous (h : s.Inv) (hc : s.cartridgeHandle = none) :
    s.romBankIndex = 1 ∧ s.ramBankIndex = 0 :=
  h.banksKept (.inl (congrArg Kind.family (h.anonymousKind hc)))

/-- Settles O54: the WRITE keeps the invariant and the absence of a cartridge, which fix both banks; with the ROM bank
its effect keeps the ROM region. -/
theorem withoutCartridgeNoWriteReachesTheLowerHalf : Obligations.WithoutCartridgeNoWriteReachesTheLowerHalf := by
  intro s t a v h hc he
  obtain ⟨hwf, hsel⟩ := decodeWrite_wf_selectedIn s.decodeCtx v a
  have hop := operationOf_of_encode (encode_decodeWrite s.decodeCtx a v)
  obtain ⟨-, effect⟩ := exec_effect (by simp [hop]) (by simp [hop]) he
  obtain ⟨-, -, -, -, hcart, -⟩ := effect.keeps
  obtain ⟨hrom, hram⟩ := h.banks_of_anonymous hc
  obtain ⟨hrom', hram'⟩ := (h.after_exec hwf hsel he).banks_of_anonymous (hcart.trans hc)
  have hbank : t.romBankIndex = s.romBankIndex := hrom'.trans hrom.symm
  exact ⟨fun b hb => effect.keeps_romRegion hwf hbank hb, hbank, hram'.trans hram.symm⟩

end Sys2Proof.Machine
end
